-- ==== Sys2Proof/Word.lean ====
section
/-! DEFINITION. The word and byte types of the engine.

00_scope.md R7: a Word32 is an unsigned integer in [0, 2^32) and `+`, `-` are mod 2^32, which is what `+` and `-` on
`BitVec 32` are. R8: bit `i` has weight `2^i`. R9: `&`, `|`, `^`, `~`, `>>`, `<<` are `&&&`, `|||`, `^^^`, `~~~`,
`>>>`, `<<<` on `BitVec 32`. -/

namespace Sys2Proof

/-- A Word32 (R6, R7). -/
abbrev Word := BitVec 32

/-- A byte of a host message (43_host_protocol.md R126). -/
abbrev Byte := BitVec 8

end Sys2Proof
end

