-- ==== Sys2Proof/Syntax.lean ====
section
/-! DEFINITION. The commands of the engine: one constructor per row of spec/opcode_table.json (30_encoding.md R63). -/

namespace Sys2Proof

/-- A command (00_scope.md R12, "Command"; 30_encoding.md R63, R68). -/
inductive Instr
  /-- NOP, 42_compression.md R106. -/
  | nop
  /-- INIT, 42_compression.md R107. -/
  | init
  /-- BEGIN, 42_compression.md R108. -/
  | begin
  /-- ROUND n, 42_compression.md R104; `n` is the field N, bits 14:8 (30_encoding.md R64). -/
  | round (n : Nat)
  /-- FINISH, 42_compression.md R109. -/
  | finish
  /-- COMPRESS, 42_compression.md R110. -/
  | compress
  /-- ABORT, 42_compression.md R112. -/
  | abort
  /-- ROTR s, 40_primitives.md R88; `s` is the field S, bits 12:8 (30_encoding.md R65). -/
  | rotr (s : Nat)
  /-- CH, 40_primitives.md R89. -/
  | ch
  /-- MAJ, 40_primitives.md R90. -/
  | maj
  /-- BSIG0, 40_primitives.md R91. -/
  | bsig0
  /-- BSIG1, 40_primitives.md R92. -/
  | bsig1
  /-- SSIG0, 40_primitives.md R93. -/
  | ssig0
  /-- SSIG1, 40_primitives.md R94. -/
  | ssig1
  deriving DecidableEq, Repr

end Sys2Proof
end

