-- ==== Sys2Proof/Machine/State.lean ====
section
/-! DEFINITION. The state: the engine's tuple (10_state.md R13), and beside it the two other agents of 00_scope.md R11,
the host with its accesses and the trace sink with its records. Plain data throughout. -/

namespace Sys2Proof.Machine

/-- The working registers A..H (10_state.md R16). -/
structure Working where
  a : Word
  b : Word
  c : Word
  d : Word
  e : Word
  f : Word
  g : Word
  h : Word
  deriving DecidableEq, Repr

/-- One indivisible engine step (00_scope.md R12; 20_memory.md R56), named after the rule that gives its effect. -/
inductive MicroStep
  /-- 42_compression.md R106. -/
  | nop
  /-- 42_compression.md R107. -/
  | init
  /-- 42_compression.md R108; the first of COMPRESS too (R110). -/
  | begin
  /-- 42_compression.md R105, the RoundStep. -/
  | round
  /-- 42_compression.md R109; the last of COMPRESS too (R110). -/
  | finish
  /-- 42_compression.md R112. -/
  | abort
  /-- 40_primitives.md R88. -/
  | rotr (s : Nat)
  /-- 40_primitives.md R89. -/
  | ch
  /-- 40_primitives.md R90. -/
  | maj
  /-- 40_primitives.md R91. -/
  | bsig0
  /-- 40_primitives.md R92. -/
  | bsig1
  /-- 40_primitives.md R93. -/
  | ssig0
  /-- 40_primitives.md R94. -/
  | ssig1
  deriving DecidableEq, Repr

/-- A pending command, `(op, remaining)` (10_state.md R31). -/
structure Pending where
  op : Instr
  remaining : List MicroStep
  deriving DecidableEq, Repr

/-- The five interface errors (60_exceptions.md R137). -/
inductive ErrorCode
  | illegal
  | sequence
  | range
  | busy
  | access
  deriving DecidableEq, Repr

/-- The architectural state of one engine: the tuple of 10_state.md R13. -/
structure Engine where
  /-- CV[0..7], R15. -/
  cv : Vector Word 8
  /-- A..H, R16. -/
  work : Working
  /-- W[0..63], R17. -/
  w : Vector Word 64
  /-- M[0..15], R18. -/
  m : Vector Word 16
  /-- T, R19: 0..64 in every state a step can reach (`Safety.Inv`). -/
  t : Nat
  /-- OPEN, R20. -/
  isOpen : Bool
  /-- BUSY, R21. -/
  busy : Bool
  /-- TRACE_EN, R23. -/
  traceEn : Bool
  /-- BLKCNT, R22. -/
  blkcnt : Word
  /-- ERR[4:0], R26. -/
  err : BitVec 5
  /-- OPX, R29. -/
  opx : Word
  /-- OPY, R29. -/
  opy : Word
  /-- OPZ, R29. -/
  opz : Word
  /-- PRES, R30. -/
  pres : Word
  /-- PEND, R31. -/
  pend : Option Pending
  deriving DecidableEq, Repr

/-- A register of the host window, one per named offset of 20_memory.md R42. -/
inductive Reg
  | ctrl
  | status
  | err
  | cmd
  | round
  | blkcnt
  | cv (i : Fin 8)
  /-- A..H, `i = 0` for A. -/
  | work (i : Fin 8)
  | m (i : Fin 16)
  | opx
  | opy
  | opz
  | pres
  | w (i : Fin 64)
  | k (i : Fin 64)
  | iv (i : Fin 8)
  deriving DecidableEq, Repr

/-- One step some agent still takes (20_memory.md R56; 70_reset_and_hazards.md R151). `off` is the byte offset from
BASE inside the 0x400-byte window (20_memory.md R41) and `n` the access width in bytes. -/
inductive Event
  /-- HOST: MemRead(off, n), R44. -/
  | read (off : BitVec 10) (n : Nat)
  /-- HOST: MemWrite(off, n, v), R45. -/
  | write (off : BitVec 10) (n : Nat) (v : Word)
  /-- ENGINE: one micro-step, when one is pending. -/
  | engine
  /-- PLATFORM: the hardware reset. -/
  | reset
  deriving DecidableEq, Repr

/-- What one host read returned, with the access that asked for it. -/
structure HostRead where
  off : BitVec 10
  n : Nat
  value : Word
  deriving DecidableEq, Repr

/-- A trace record: block index, round index, snapshot after the round (42_compression.md R111). -/
structure TraceRecord where
  block : Word
  round : Nat
  snapshot : Working
  deriving DecidableEq, Repr

/-- The whole system: the engine (R13), and what belongs to the other agents (log entries 1 and 2). -/
structure State where
  /-- The ENGINE's architectural state. -/
  engine : Engine
  /-- The steps still to take, in order; when it is empty only the engine moves. -/
  agenda : List Event
  /-- What the HOST's reads returned, oldest first. -/
  reads : List HostRead
  /-- What the TRACE SINK received, oldest first. -/
  trace : List TraceRecord
  deriving DecidableEq, Repr

/-- Why the model stops. The hardware has no such stop (60_exceptions.md R142): both are raised only from engine
states that the spec rules out, and no state with `Safety.Inv` raises either. -/
inductive Fault
  /-- Raised by `microRound` when T is 64 or more: R105 has 0 <= t <= 63 "as guaranteed by acceptance", so the spec
  gives round 64 no effect. Safe: the model stops where the spec has no such state. -/
  | roundPastEnd
  /-- Raised by `engineTurn` when PEND is a record with no micro-step left: R56 makes PEND none in the step that
  empties the list. Safe: the model stops where the spec has no such state. -/
  | emptyPending
  deriving DecidableEq, Repr

/-- Why an instruction has no meaning. -/
inductive Refusal
  /-- Raised by an arm of `exec` that has no meaning yet. Safe: no next state is claimed. No arm raises it now. -/
  | notModelled (mnemonic : String)
  deriving DecidableEq, Repr

/-- 10_state.md R34: the engine after a hardware reset. -/
def Engine.reset : Engine where
  cv := initialValue
  work := ⟨0, 0, 0, 0, 0, 0, 0, 0⟩
  w := Vector.replicate 64 0
  m := Vector.replicate 16 0
  t := 0
  isOpen := false
  busy := false
  traceEn := false
  blkcnt := 0
  err := 0
  opx := 0
  opy := 0
  opz := 0
  pres := 0
  pend := none

/-- The machine right after reset: the engine as R34 says, no access issued yet, nothing read, nothing traced. -/
def State.reset : State where
  engine := Engine.reset
  agenda := []
  reads := []
  trace := []

/-- The state with another engine part. -/
def State.withEngine (s : State) (e : Engine) : State := { s with engine := e }

/-- The state with another agenda. -/
def State.withAgenda (s : State) (l : List Event) : State := { s with agenda := l }

/-- The host receives a word. -/
def State.pushRead (s : State) (r : HostRead) : State := { s with reads := s.reads ++ [r] }

/-- The sink receives a record. -/
def State.pushTrace (s : State) (r : TraceRecord) : State := { s with trace := s.trace ++ [r] }

end Sys2Proof.Machine
end

