-- ==== Sys2Proof/Machine/Flags.lean ====
section
/-! DEFINITION. The status and error bits (10_state.md R20, R21, R24, R26, R28). There are no condition codes: no
primitive, round or addition sets a flag (R32). -/

namespace Sys2Proof.Machine

/-- R24: STATUS, bit 0 BUSY, bit 1 OPEN. -/
def statusWord (e : Engine) : Word :=
  (BitVec.ofBool e.busy).setWidth 32 ||| ((BitVec.ofBool e.isOpen).setWidth 32 <<< 1)

/-- R23: CTRL, bit 0 TRACE_EN. -/
def ctrlWord (e : Engine) : Word := (BitVec.ofBool e.traceEn).setWidth 32

/-- R26: ERR as read, bits 31:5 zero. -/
def errWord (e : Engine) : Word := e.err.setWidth 32

/-- R28: ROUND, T in bits 6:0. -/
def roundWord (e : Engine) : Word := (BitVec.ofNat 7 e.t).setWidth 32

/-- R137: the code of an error is its ERR bit number. -/
def errorBit : ErrorCode → Nat
  | .illegal => 0
  | .sequence => 1
  | .range => 2
  | .busy => 3
  | .access => 4

/-- R138: `ERR[code(E)] <- 1`. -/
def setError (c : ErrorCode) (err : BitVec 5) : BitVec 5 := err ||| (1#5 <<< errorBit c)

/-- R26: writing `v` clears bit i where `v[i] = 1`, for i in 0..4, and ignores `v[31:5]`. -/
def clearErrors (v : Word) (err : BitVec 5) : BitVec 5 := err &&& ~~~(v.extractLsb' 0 5)

end Sys2Proof.Machine
end

