-- ==== Sys2Proof/Machine/Functions.lean ====
section
/-! DEFINITION. The bitwise functions (40_primitives.md R77 to R84), as pure functions of words. -/

namespace Sys2Proof.Machine

/-- R77: rotate right, `(x >> n) | (x << (32 - n))`. At `n = 0` the second term is `x << 32 = 0`, so the result is `x`,
as R77 says. Amounts are taken mod 32 (92_eei_decisions.md D37; 93 G0). -/
def rotr (x : Word) (n : Nat) : Word := (x >>> (n % 32)) ||| (x <<< (32 - n % 32))

/-- R78: shift right with zero fill; internal, no command. -/
def shr (x : Word) (n : Nat) : Word := x >>> n

/-- R79: choice. -/
def chFn (x y z : Word) : Word := (x &&& y) ^^^ (~~~x &&& z)

/-- R80: majority. -/
def majFn (x y z : Word) : Word := (x &&& y) ^^^ (x &&& z) ^^^ (y &&& z)

/-- R81: the round's mixing function on a. -/
def bsig0Fn (x : Word) : Word := rotr x 2 ^^^ rotr x 13 ^^^ rotr x 22

/-- R82: the round's mixing function on e. -/
def bsig1Fn (x : Word) : Word := rotr x 6 ^^^ rotr x 11 ^^^ rotr x 25

/-- R83: the first mixing function of the schedule. -/
def ssig0Fn (x : Word) : Word := rotr x 7 ^^^ rotr x 18 ^^^ shr x 3

/-- R84: the second mixing function of the schedule. -/
def ssig1Fn (x : Word) : Word := rotr x 17 ^^^ rotr x 19 ^^^ shr x 10

end Sys2Proof.Machine
end

