-- ==== Sys2Proof/Config.lean ====
section
/-! DEFINITION. What the platform fixes: the base address of the register window, the one open parameter
(00_scope.md R6; 92_eei_decisions.md D4; 93_implementation_defined.md P1). No rule depends on its value. -/

namespace Sys2Proof

/-- R41: the window is 0x400 bytes. -/
def Config.windowBytes : Nat := 0x400

/-- Which 1 KiB page of the bus the window is. Free: the platform chooses it (log entry 4). -/
opaque Config.baseIndex : Nat

/-- R41: BASE, a multiple of 0x400. -/
def Config.base : Nat := Config.windowBytes * Config.baseIndex

end Sys2Proof
end

