-- ==== Sys2Proof/Machine/Operands.lean ====
section
/-! DEFINITION. Which register an access names (20_memory.md R42), the shape of an access (R43), and the named operands
of the commands. -/

namespace Sys2Proof.Machine

/-- R43: a legal access is 4 bytes wide at a multiple of 4. -/
def legalShape (off : BitVec 10) (n : Nat) : Bool := n == 4 && off.toNat % 4 == 0

/-- R42: the register at a word index, `none` at a reserved one. The word index is the offset divided by 4. -/
def regAtIndex (i : Nat) : Option Reg :=
  if i = 0 then some .ctrl
  else if i = 1 then some .status
  else if i = 2 then some .err
  else if i = 3 then some .cmd
  else if i = 4 then some .round
  else if i = 5 then some .blkcnt
  else if i < 8 then none
  else if i < 16 then some (.cv (Fin.ofNat 8 (i - 8)))
  else if i < 24 then some (.work (Fin.ofNat 8 (i - 16)))
  else if i < 32 then none
  else if i < 48 then some (.m (Fin.ofNat 16 (i - 32)))
  else if i = 48 then some .opx
  else if i = 49 then some .opy
  else if i = 50 then some .opz
  else if i = 51 then some .pres
  else if i < 64 then none
  else if i < 128 then some (.w (Fin.ofNat 64 (i - 64)))
  else if i < 192 then some (.k (Fin.ofNat 64 (i - 128)))
  else if i < 200 then some (.iv (Fin.ofNat 8 (i - 192)))
  else none

/-- R42: the register at an aligned offset, `none` where the offset is reserved. -/
def regAt (off : BitVec 10) : Option Reg := regAtIndex (off.toNat / 4)

/-- R42, R70: `off(<reg>)`. -/
def offsetOf : Reg → BitVec 10
  | .ctrl => 0x000#10
  | .status => 0x004#10
  | .err => 0x008#10
  | .cmd => 0x00C#10
  | .round => 0x010#10
  | .blkcnt => 0x014#10
  | .cv i => BitVec.ofNat 10 (0x020 + 4 * i.val)
  | .work i => BitVec.ofNat 10 (0x040 + 4 * i.val)
  | .m i => BitVec.ofNat 10 (0x080 + 4 * i.val)
  | .opx => 0x0C0#10
  | .opy => 0x0C4#10
  | .opz => 0x0C8#10
  | .pres => 0x0CC#10
  | .w i => BitVec.ofNat 10 (0x100 + 4 * i.val)
  | .k i => BitVec.ofNat 10 (0x200 + 4 * i.val)
  | .iv i => BitVec.ofNat 10 (0x300 + 4 * i.val)

/-- R41, R42: the offset at which the engine decodes a bus address, `none` outside the window. -/
def windowOffset (addr : Nat) : Option (BitVec 10) :=
  if Config.base ≤ addr ∧ addr < Config.base + Config.windowBytes then
    some (BitVec.ofNat 10 (addr - Config.base))
  else none

/-- A host read of a bus address reaches the engine as this event, or not at all (R42, last sentence). -/
def busRead (addr n : Nat) : Option Event := (windowOffset addr).map (fun off => .read off n)

/-- A host write of a bus address reaches the engine as this event, or not at all. -/
def busWrite (addr n : Nat) (v : Word) : Option Event := (windowOffset addr).map (fun off => .write off n v)

/-- The working registers in the window's order, A first (R42). -/
def Working.toVector (s : Working) : Vector Word 8 := #v[s.a, s.b, s.c, s.d, s.e, s.f, s.g, s.h]

/-- The chaining value as a working state, CV[0] paired with a (10_state.md R15). -/
def Working.ofVector (v : Vector Word 8) : Working :=
  ⟨wordAt v 0, wordAt v 1, wordAt v 2, wordAt v 3, wordAt v 4, wordAt v 5, wordAt v 6, wordAt v 7⟩

end Sys2Proof.Machine
end

