-- ==== Sys2Proof/Machine/Ops.lean ====
section
/-! DEFINITION. The shared operations: raising an error (60_exceptions.md R138), accepting a command (R139), the end of
a micro-step (20_memory.md R56), the schedule word (41_schedule.md R97), the round function (42_compression.md R103),
emitting a trace record (R111), writing the primitive result (40_primitives.md R76). -/

namespace Sys2Proof.Machine

/-- R138, `raise E`: the ERR bit is set and the access or command has no other effect. This is the hardware's whole
exception mechanism (R136: no trap, nothing saved, no mode changed). -/
def raise (c : ErrorCode) (s : State) : State :=
  s.withEngine { s.engine with err := setError c s.engine.err }

/-- R139, last two lines: `PEND <- (c, MicroSteps(c)); BUSY <- 1`. -/
def accept (op : Instr) (steps : List MicroStep) (s : State) : State :=
  s.withEngine { s.engine with pend := some ⟨op, steps⟩, busy := true }

/-- Acceptance of a decoded command whose own conditions have answered `check` (R139). BUSY is checked first, as for
every command (42_compression.md, "Acceptance"; 40_primitives.md R76). -/
def issue (op : Instr) (steps : List MicroStep) (check : Option ErrorCode) (s : State) : State :=
  if s.engine.busy then raise .busy s
  else
    match check with
    | some c => raise c s
    | none => accept op steps s

/-- R139: INIT, BEGIN and COMPRESS need OPEN = 0, else SEQUENCE. -/
def needsClosed (e : Engine) : Option ErrorCode := if e.isOpen then some .sequence else none

/-- R139: ROUND needs OPEN = 1, else SEQUENCE, and then 1 <= n and T + n <= 64, else RANGE. -/
def needsRounds (n : Nat) (e : Engine) : Option ErrorCode :=
  if !e.isOpen then some .sequence
  else if n = 0 ∨ 64 < e.t + n then some .range
  else none

/-- R139: FINISH needs OPEN = 1 and T = 64, else SEQUENCE. -/
def needsComplete (e : Engine) : Option ErrorCode :=
  if !e.isOpen || e.t != 64 then some .sequence else none

/-- R56: the micro-step just performed is removed from the list; when the list becomes empty, `PEND <- none` and
`BUSY <- 0` in the same step. -/
def retire (op : Instr) (later : List MicroStep) (s : State) : State :=
  match later with
  | [] => s.withEngine { s.engine with pend := none, busy := false }
  | m :: ms => s.withEngine { s.engine with pend := some ⟨op, m :: ms⟩ }

/-- R96, R97: schedule word `t`, from M for t < 16 and else from the recurrence over W. -/
def scheduleWord (m : Vector Word 16) (w : Vector Word 64) (t : Nat) : Word :=
  if t < 16 then wordAt m t
  else ssig1Fn (wordAt w (t - 2)) + wordAt w (t - 7) + ssig0Fn (wordAt w (t - 15)) + wordAt w (t - 16)

/-- R103: T1. -/
def roundT1 (s : Working) (t : Nat) (w : Word) : Word :=
  s.h + bsig1Fn s.e + chFn s.e s.f s.g + wordAt roundConstants t + w

/-- R103: T2. -/
def roundT2 (s : Working) : Word := bsig0Fn s.a + majFn s.a s.b s.c

/-- R103, `Round(s, t, w)`. -/
def roundFn (s : Working) (t : Nat) (w : Word) : Working where
  a := roundT1 s t w + roundT2 s
  b := s.a
  c := s.b
  d := s.c
  e := s.d + roundT1 s t w
  f := s.e
  g := s.f
  h := s.g

/-- R111: emit a record exactly when TRACE_EN = 1. -/
def emit (r : TraceRecord) (s : State) : State := if s.engine.traceEn then s.pushTrace r else s

/-- R109, R113: element-wise addition mod 2^32 of a chaining value and a working state. -/
def fold (cv : Vector Word 8) (s : Working) : Vector Word 8 := Vector.zipWith (· + ·) cv s.toVector

/-- R76: a primitive's micro-step writes PRES and nothing else. -/
def writePres (x : Word) (s : State) : State := s.withEngine { s.engine with pres := x }

/-- R111: the wire format of a record, ten words. -/
def TraceRecord.words (r : TraceRecord) : List Word :=
  [r.block, BitVec.ofNat 32 r.round, r.snapshot.a, r.snapshot.b, r.snapshot.c, r.snapshot.d,
    r.snapshot.e, r.snapshot.f, r.snapshot.g, r.snapshot.h]

/-- R96 by prefixes: the schedule with its first `k` words computed and the rest 0. -/
def expandPrefix (m : Vector Word 16) : Nat → Vector Word 64
  | 0 => Vector.replicate 64 0
  | k + 1 => (expandPrefix m k).setIfInBounds k (scheduleWord m (expandPrefix m k) k)

/-- R96, `Expand(m)`. -/
def expand (m : Vector Word 16) : Vector Word 64 := expandPrefix m 64

/-- R113: the working state after rounds t, t+1, ..., t+k-1 from `s`, over schedule `w`. -/
def rounds (w : Vector Word 64) (s : Working) (t : Nat) : Nat → Working
  | 0 => s
  | k + 1 => roundFn (rounds w s t k) (t + k) (wordAt w (t + k))

/-- R113, `Compress(cv, m)`. -/
def compressFn (cv : Vector Word 8) (m : Vector Word 16) : Vector Word 8 :=
  fold cv (rounds (expand m) (Working.ofVector cv) 0 64)

end Sys2Proof.Machine
end

