-- ==== Sys2Proof/Machine/Block.lean ====
section
/-! DEFINITION. The block commands (42_compression.md): for each its acceptance with its list of micro-steps (`exec…`)
and the effect of its micro-step (`micro…`). -/

namespace Sys2Proof.Machine

/-- R106, micro-step: nothing. -/
def microNop (s : State) : State := s

/-- R106: NOP, no condition, one micro-step. -/
def execNop (s : State) : Host.Outcome State Fault Refusal :=
  .next (issue .nop [.nop] none s)

/-- R107, micro-step: `CV <- IV; BLKCNT <- 0`. -/
def microInit (s : State) : State :=
  s.withEngine { s.engine with cv := initialValue, blkcnt := 0 }

/-- R107: INIT, needs OPEN = 0, one micro-step. -/
def execInit (s : State) : Host.Outcome State Fault Refusal :=
  .next (issue .init [.init] (needsClosed s.engine) s)

/-- R108, micro-step: `A..H <- CV; W <- 0; T <- 0; OPEN <- 1`. -/
def microBegin (s : State) : State :=
  s.withEngine { s.engine with
    work := Working.ofVector s.engine.cv, w := Vector.replicate 64 0, t := 0, isOpen := true }

/-- R108: BEGIN, needs OPEN = 0, one micro-step. -/
def execBegin (s : State) : Host.Outcome State Fault Refusal :=
  .next (issue .begin [.begin] (needsClosed s.engine) s)

/-- R105, the engine's part of RoundStep: latch W[t], run Round, `T <- t + 1`. -/
def roundStepEngine (e : Engine) : Engine :=
  { e with
    w := e.w.setIfInBounds e.t (scheduleWord e.m e.w e.t)
    work := roundFn e.work e.t (scheduleWord e.m e.w e.t)
    t := e.t + 1 }

/-- R105, R111: RoundStep with its trace record (BLKCNT, t, A..H after the round). -/
def roundStep (s : State) : State :=
  emit ⟨s.engine.blkcnt, s.engine.t, (roundStepEngine s.engine).work⟩ (s.withEngine (roundStepEngine s.engine))

/-- R105: RoundStep where 0 <= T <= 63, "as guaranteed by acceptance"; the spec has no round 64 (log entry 5). -/
def microRound (s : State) : Host.Outcome State Fault Refusal :=
  if s.engine.t < 64 then .next (roundStep s) else .fault .roundPastEnd

/-- R104: ROUND n, `n` round micro-steps. -/
def execRound (n : Nat) (s : State) : Host.Outcome State Fault Refusal :=
  .next (issue (.round n) (List.replicate n .round) (needsRounds n s.engine) s)

/-- R109, micro-step: `CV <- CV + A..H; BLKCNT <- BLKCNT + 1; OPEN <- 0`. -/
def microFinish (s : State) : State :=
  s.withEngine { s.engine with
    cv := fold s.engine.cv s.engine.work, blkcnt := s.engine.blkcnt + 1, isOpen := false }

/-- R109: FINISH, needs OPEN = 1 and T = 64, one micro-step. -/
def execFinish (s : State) : Host.Outcome State Fault Refusal :=
  .next (issue .finish [.finish] (needsComplete s.engine) s)

/-- R110: COMPRESS, needs OPEN = 0; BEGIN's micro-step, 64 round micro-steps, FINISH's micro-step. -/
def execCompress (s : State) : Host.Outcome State Fault Refusal :=
  .next (issue .compress (.begin :: (List.replicate 64 .round ++ [.finish])) (needsClosed s.engine) s)

/-- R112, micro-step: `OPEN <- 0`. -/
def microAbort (s : State) : State := s.withEngine { s.engine with isOpen := false }

/-- R112: ABORT, no condition, one micro-step. -/
def execAbort (s : State) : Host.Outcome State Fault Refusal :=
  .next (issue .abort [.abort] none s)

end Sys2Proof.Machine
end

