-- ==== Sys2Proof/Machine/Primitive.lean ====
section
/-! DEFINITION. The primitive commands (40_primitives.md R76, R88 to R94): no condition, one micro-step, which writes
PRES and nothing else. -/

namespace Sys2Proof.Machine

/-- R88, micro-step: `PRES <- ROTR(OPX, S)`. -/
def microRotr (n : Nat) (s : State) : State := writePres (rotr s.engine.opx n) s

/-- R88: ROTR s. -/
def execRotr (n : Nat) (s : State) : Host.Outcome State Fault Refusal :=
  .next (issue (.rotr n) [.rotr n] none s)

/-- R89, micro-step: `PRES <- CH(OPX, OPY, OPZ)`. -/
def microCh (s : State) : State := writePres (chFn s.engine.opx s.engine.opy s.engine.opz) s

/-- R89: CH. -/
def execCh (s : State) : Host.Outcome State Fault Refusal :=
  .next (issue .ch [.ch] none s)

/-- R90, micro-step: `PRES <- MAJ(OPX, OPY, OPZ)`. -/
def microMaj (s : State) : State := writePres (majFn s.engine.opx s.engine.opy s.engine.opz) s

/-- R90: MAJ. -/
def execMaj (s : State) : Host.Outcome State Fault Refusal :=
  .next (issue .maj [.maj] none s)

/-- R91, micro-step: `PRES <- BSIG0(OPX)`. -/
def microBsig0 (s : State) : State := writePres (bsig0Fn s.engine.opx) s

/-- R91: BSIG0. -/
def execBsig0 (s : State) : Host.Outcome State Fault Refusal :=
  .next (issue .bsig0 [.bsig0] none s)

/-- R92, micro-step: `PRES <- BSIG1(OPX)`. -/
def microBsig1 (s : State) : State := writePres (bsig1Fn s.engine.opx) s

/-- R92: BSIG1. -/
def execBsig1 (s : State) : Host.Outcome State Fault Refusal :=
  .next (issue .bsig1 [.bsig1] none s)

/-- R93, micro-step: `PRES <- SSIG0(OPX)`. -/
def microSsig0 (s : State) : State := writePres (ssig0Fn s.engine.opx) s

/-- R93: SSIG0. -/
def execSsig0 (s : State) : Host.Outcome State Fault Refusal :=
  .next (issue .ssig0 [.ssig0] none s)

/-- R94, micro-step: `PRES <- SSIG1(OPX)`. -/
def microSsig1 (s : State) : State := writePres (ssig1Fn s.engine.opx) s

/-- R94: SSIG1. -/
def execSsig1 (s : State) : Host.Outcome State Fault Refusal :=
  .next (issue .ssig1 [.ssig1] none s)

end Sys2Proof.Machine
end

