-- ==== Sys2Proof/Machine/Engine.lean ====
section
/-! DEFINITION. The engine's step (20_memory.md R56): the first micro-step of PEND.remaining. -/

namespace Sys2Proof.Machine

/-- R56: the effect of one micro-step, each by its own rule. -/
def microStep (m : MicroStep) (s : State) : Host.Outcome State Fault Refusal :=
  match m with
  | .nop => .next (microNop s)
  | .init => .next (microInit s)
  | .begin => .next (microBegin s)
  | .round => microRound s
  | .finish => .next (microFinish s)
  | .abort => .next (microAbort s)
  | .rotr n => .next (microRotr n s)
  | .ch => .next (microCh s)
  | .maj => .next (microMaj s)
  | .bsig0 => .next (microBsig0 s)
  | .bsig1 => .next (microBsig1 s)
  | .ssig0 => .next (microSsig0 s)
  | .ssig1 => .next (microSsig1 s)

/-- R56: an engine step is possible exactly when PEND is not none; it performs the first micro-step and removes it.
Where none is pending the engine takes no step and the state stays (60_exceptions.md R148; log entry 1). -/
def engineTurn (s : State) : Host.Outcome State Fault Refusal :=
  match s.engine.pend with
  | none => .next s
  | some ⟨_, []⟩ => .fault .emptyPending
  | some ⟨op, m :: later⟩ =>
    match microStep m s with
    | .next u => .next (retire op later u)
    | .fault r => .fault r
    | .refused r => .refused r

/-- `k` engine turns with no host step between them. -/
def engineTurns : Nat → State → Host.Outcome State Fault Refusal
  | 0, s => .next s
  | k + 1, s =>
    match engineTurn s with
    | .next u => engineTurns k u
    | .fault r => .fault r
    | .refused r => .refused r

end Sys2Proof.Machine
end

