-- ==== Sys2Proof/WellFormed.lean ====
section
/-! DEFINITION. Which commands have an encoding: the operand ranges of 30_encoding.md R64, R65, R69. -/

namespace Sys2Proof

/-- R64: N is an unsigned count in 0..127. R65: S is an unsigned amount in 0..31. R69: the assembler refuses any other
value. Every command without an operand is well formed. -/
def Instr.wellFormed : Instr → Bool
  | .round n => decide (n ≤ 127)
  | .rotr s => decide (s ≤ 31)
  | .nop | .init | .begin | .finish | .compress | .abort
  | .ch | .maj | .bsig0 | .bsig1 | .ssig0 | .ssig1 => true

/-- The check as a proposition. -/
abbrev Instr.WellFormed (i : Instr) : Prop := i.wellFormed = true

end Sys2Proof
end

