-- ==== Sys2Proof/Decode.lean ====
section
/-! DEFINITION. The command decoder and encoder (30_encoding.md R61 to R68). The decoder is total on all 2^32 words;
it rejects by name. A command is one 32-bit word moved whole over the bus (R61; 20_memory.md R51), so there is no byte
order to fix (log entry 7). -/

namespace Sys2Proof

/-- Why a word is Illegal (R68). Both reasons are the ILLEGAL error, bit 0 of ERR (60_exceptions.md R137). -/
inductive Illegal
  /-- R67: the OPC is in no row of R63. -/
  | undefinedOpcode
  /-- R66: the OPC has a row and a reserved bit of it is 1. -/
  | reservedBitSet
  deriving DecidableEq, Repr

/-- R62: OPC, bits 7:0. -/
def opcodeField (v : Word) : BitVec 8 := v.extractLsb' 0 8

/-- R64: N = zext(v[14:8]). -/
def countField (v : Word) : Nat := (v.extractLsb' 8 7).toNat

/-- R65: S = zext(v[12:8]). -/
def amountField (v : Word) : Nat := (v.extractLsb' 8 5).toNat

/-- R66: the command `i` when the reserved bits of its row, `r`, are all 0. -/
def whenReservedClear {w : Nat} (r : BitVec w) (i : Instr) : Except Illegal Instr :=
  if r = 0#w then .ok i else .error .reservedBitSet

/-- R68, `Decode(v)`. -/
def decode (v : Word) : Except Illegal Instr :=
  match opcodeField v with
  | 0x00#8 => whenReservedClear (v.extractLsb' 8 24) .nop
  | 0x01#8 => whenReservedClear (v.extractLsb' 8 24) .init
  | 0x02#8 => whenReservedClear (v.extractLsb' 8 24) .begin
  | 0x03#8 => whenReservedClear (v.extractLsb' 15 17) (.round (countField v))
  | 0x04#8 => whenReservedClear (v.extractLsb' 8 24) .finish
  | 0x05#8 => whenReservedClear (v.extractLsb' 8 24) .compress
  | 0x06#8 => whenReservedClear (v.extractLsb' 8 24) .abort
  | 0x10#8 => whenReservedClear (v.extractLsb' 13 19) (.rotr (amountField v))
  | 0x11#8 => whenReservedClear (v.extractLsb' 8 24) .ch
  | 0x12#8 => whenReservedClear (v.extractLsb' 8 24) .maj
  | 0x13#8 => whenReservedClear (v.extractLsb' 8 24) .bsig0
  | 0x14#8 => whenReservedClear (v.extractLsb' 8 24) .bsig1
  | 0x15#8 => whenReservedClear (v.extractLsb' 8 24) .ssig0
  | 0x16#8 => whenReservedClear (v.extractLsb' 8 24) .ssig1
  | _ => .error .undefinedOpcode

/-- R63: the OPC of a command. -/
def opcodeOf : Instr → BitVec 8
  | .nop => 0x00#8
  | .init => 0x01#8
  | .begin => 0x02#8
  | .round _ => 0x03#8
  | .finish => 0x04#8
  | .compress => 0x05#8
  | .abort => 0x06#8
  | .rotr _ => 0x10#8
  | .ch => 0x11#8
  | .maj => 0x12#8
  | .bsig0 => 0x13#8
  | .bsig1 => 0x14#8
  | .ssig0 => 0x15#8
  | .ssig1 => 0x16#8

/-- R64, R65: the operand of a command, 0 where it has none. -/
def operandOf : Instr → Nat
  | .round n => n
  | .rotr s => s
  | .nop | .init | .begin | .finish | .compress | .abort
  | .ch | .maj | .bsig0 | .bsig1 | .ssig0 | .ssig1 => 0

/-- R68, `Encode(c)`: the OPC, with N or S shifted to bit 8. R68 gives a word for n in 0..127 and s in 0..31 only, the
well-formed commands. DESIGN CHOICE (log entry 9): the same expression stands for every other n and s; it sets reserved
bits, and drops the operand's bits from bit 24 on. -/
def encode (i : Instr) : Word :=
  (opcodeOf i).setWidth 32 ||| (BitVec.ofNat 32 (operandOf i) <<< 8)

/-- R63: the Mask column of a command's row. -/
def rowMask : Instr → Word
  | .round _ => 0xFFFF80FF#32
  | .rotr _ => 0xFFFFE0FF#32
  | .nop | .init | .begin | .finish | .compress | .abort
  | .ch | .maj | .bsig0 | .bsig1 | .ssig0 | .ssig1 => 0xFFFFFFFF#32

/-- R63: the Word (match) column of a command's row. -/
def rowWord (i : Instr) : Word := (opcodeOf i).setWidth 32

/-- The command my decoder reads from `nbits` bits `w` of the opcode table (bit 0 of the table is bit 0 of the word,
R8). Bits above `nbits` are 0; a number of more than 32 bits is no command word (R61: one length). -/
def decodeTableWord (nbits w : Nat) : Option Instr :=
  if w % 2 ^ nbits < 2 ^ 32 then
    match decode (BitVec.ofNat 32 (w % 2 ^ nbits)) with
    | .ok i => some i
    | .error _ => none
  else none

end Sys2Proof
end

