-- ==== Sys2Proof/Machine/Dispatch.lean ====
section
/-! DEFINITION. The meaning of each command at the host's CMD write step: its acceptance (60_exceptions.md R139), which
queues its micro-steps for the engine (20_memory.md R56). -/

namespace Sys2Proof.Machine

def exec (i : Instr) (s : State) : Host.Outcome State Fault Refusal :=
  match i with
  | .nop => Sys2Proof.Machine.execNop s
  | .init => Sys2Proof.Machine.execInit s
  | .begin => Sys2Proof.Machine.execBegin s
  | .round n => Sys2Proof.Machine.execRound n s
  | .finish => Sys2Proof.Machine.execFinish s
  | .compress => Sys2Proof.Machine.execCompress s
  | .abort => Sys2Proof.Machine.execAbort s
  | .rotr n => Sys2Proof.Machine.execRotr n s
  | .ch => Sys2Proof.Machine.execCh s
  | .maj => Sys2Proof.Machine.execMaj s
  | .bsig0 => Sys2Proof.Machine.execBsig0 s
  | .bsig1 => Sys2Proof.Machine.execBsig1 s
  | .ssig0 => Sys2Proof.Machine.execSsig0 s
  | .ssig1 => Sys2Proof.Machine.execSsig1 s

end Sys2Proof.Machine
end

