-- ==== Sys2Proof/Machine/Window.lean ====
section
/-! DEFINITION. The host's access to the register window: MemRead (20_memory.md R44), MemWrite (R45, check order
60_exceptions.md R140) and Accept (60_exceptions.md R139). -/

namespace Sys2Proof.Machine

/-- R44: what each register reads as. -/
def readReg (e : Engine) : Reg → Word
  | .ctrl => ctrlWord e
  | .status => statusWord e
  | .err => errWord e
  | .cmd => 0
  | .round => roundWord e
  | .blkcnt => e.blkcnt
  | .cv i => wordAt e.cv i
  | .work i => wordAt e.work.toVector i
  | .m i => wordAt e.m i
  | .opx => e.opx
  | .opy => e.opy
  | .opz => e.opz
  | .pres => e.pres
  | .w i => wordAt e.w i
  | .k i => wordAt roundConstants i
  | .iv i => wordAt initialValue i

/-- R44, `MemRead(off, n)`: 0 for a wrong shape (R43) and at a reserved offset. -/
def memRead (e : Engine) (off : BitVec 10) (n : Nat) : Word :=
  if legalShape off n then
    match regAt off with
    | some r => readReg e r
    | none => 0
  else 0

/-- R139, `Accept(v)`: decode the command word once, and run what it names. -/
def acceptWord (v : Word) (s : State) : Host.Outcome State Fault Refusal :=
  match decode v with
  | .error _ => .next (raise .illegal s)
  | .ok i => exec i s

/-- R45: the write effect of each register, after the shape and BUSY checks. -/
def writeReg (r : Reg) (v : Word) (s : State) : Host.Outcome State Fault Refusal :=
  match r with
  | .ctrl => .next (s.withEngine { s.engine with traceEn := v.getLsbD 0 })
  | .err => .next (s.withEngine { s.engine with err := clearErrors v s.engine.err })
  | .cmd => acceptWord v s
  | .blkcnt => .next (s.withEngine { s.engine with blkcnt := v })
  | .cv i =>
    if s.engine.isOpen then .next (raise .sequence s)
    else .next (s.withEngine { s.engine with cv := s.engine.cv.setIfInBounds i v })
  | .m i => .next (s.withEngine { s.engine with m := s.engine.m.setIfInBounds i v })
  | .opx => .next (s.withEngine { s.engine with opx := v })
  | .opy => .next (s.withEngine { s.engine with opy := v })
  | .opz => .next (s.withEngine { s.engine with opz := v })
  | .status => .next (raise .access s)
  | .round => .next (raise .access s)
  | .work _ => .next (raise .access s)
  | .pres => .next (raise .access s)
  | .w _ => .next (raise .access s)
  | .k _ => .next (raise .access s)
  | .iv _ => .next (raise .access s)

/-- R45, `MemWrite(off, n, v)`, checks in the order of R140: shape, BUSY, then the target's own. -/
def memWrite (off : BitVec 10) (n : Nat) (v : Word) (s : State) : Host.Outcome State Fault Refusal :=
  if !legalShape off n then .next (raise .access s)
  else if s.engine.busy then .next (raise .busy s)
  else
    match regAt off with
    | some r => writeReg r v s
    | none => .next (raise .access s)

end Sys2Proof.Machine
end

