-- ==== Sys2Proof/Machine/Agents.lean ====
section
/-! DEFINITION. One step of each agent (00_scope.md R11; 20_memory.md R56), and the placing of a command where the next
host step issues it. -/

namespace Sys2Proof.Machine

/-- 70_reset_and_hazards.md R151: every piece of the engine at its reset value, PEND discarded. Records already emitted
stay with the sink and words already read stay with the host. -/
def resetEngine (s : State) : State := s.withEngine Engine.reset

/-- R44, R52: the host receives the word; no engine state changes. -/
def hostRead (off : BitVec 10) (n : Nat) (s : State) : State :=
  s.pushRead ⟨off, n, memRead s.engine off n⟩

/-- R56: one step of the agent that `ev` names. -/
def perform (ev : Event) (s : State) : Host.Outcome State Fault Refusal :=
  match ev with
  | .read off n => .next (hostRead off n s)
  | .write off n v => memWrite off n v s
  | .engine => engineTurn s
  | .reset => .next (resetEngine s)

/-- The host's write of a command word to CMD, offset 0x00C (30_encoding.md R61, R70). -/
def commandWrite (v : Word) : Event := .write (offsetOf .cmd) 4 v

/-- R56: the next event of the agenda; with no event left only the engine moves, so it is never starved. -/
def stepAgenda (s : State) : Host.Outcome State Fault Refusal :=
  match s.agenda with
  | [] => engineTurn s
  | ev :: rest => perform ev (s.withAgenda rest)

/-- The host's next step is the CMD write of the `nbits`-bit command `w` (log entry 3). -/
def placeCommand (nbits w : Nat) (s : State) : State :=
  s.withAgenda (commandWrite (BitVec.ofNat 32 (w % 2 ^ nbits)) :: s.agenda)

end Sys2Proof.Machine
end

