-- ==== Sys2Proof/Machine/Step.lean ====
section
/-! DEFINITION. One step of the system (20_memory.md R56). -/

namespace Sys2Proof.Machine

/-- R56: one agent moves. -/
def step (s : State) : Host.Outcome State Fault Refusal := stepAgenda s

/-- `s` with the `nbits`-bit command `w` as the host's next CMD write, so that the very next step decodes and runs
exactly it (log entry 3). -/
def State.withFetchWord (s : State) (nbits w : Nat) : State := placeCommand nbits w s

end Sys2Proof.Machine
end

