-- ==== Sys2Proof/Machine/HostDuty.lean ====
section
/-! DEFINITION. Host duties around the engine (43_host_protocol.md) as pure functions: packing, padding, the chain over
blocks, the digest. Nothing here is engine state or is called by `step` (43, first paragraph). -/

namespace Sys2Proof.Machine

/-- R126: four bytes packed big-endian. -/
def packWord (b0 b1 b2 b3 : Byte) : Word := b0 ++ b1 ++ b2 ++ b3

/-- R126: `M[i]` from a 64-byte chunk. -/
def packBlock (chunk : List Byte) : Vector Word 16 :=
  Vector.ofFn (fun i => packWord (chunk.getD (4 * i.val) 0) (chunk.getD (4 * i.val + 1) 0)
    (chunk.getD (4 * i.val + 2) 0) (chunk.getD (4 * i.val + 3) 0))

/-- R127: `be64(n)`. -/
def be64 (n : Nat) : List Byte := (List.range 8).map (fun k => BitVec.ofNat 8 (n >>> (56 - 8 * k)))

/-- R127: how many zero bytes bring `L + 1` to 56 mod 64. -/
def padZeros (len : Nat) : Nat := (119 - len % 64) % 64

/-- R127, `Pad(msg)`; `none` is the host's OverflowError, `8 * L >= 2^64` (60_exceptions.md R149). -/
def pad (msg : List Byte) : Option (List Byte) :=
  if 8 * msg.length < 2 ^ 64 then
    some (msg ++ 0x80#8 :: List.replicate (padZeros msg.length) 0 ++ be64 (8 * msg.length))
  else none

/-- R129: the first `k` 16-word blocks of a padded message. -/
def blocksOf : Nat → List Byte → List (Vector Word 16)
  | 0, _ => []
  | k + 1, p => packBlock (p.take 64) :: blocksOf k (p.drop 64)

/-- R113: the chaining value after the blocks, folded in order. -/
def compressBlocks (cv : Vector Word 8) (blocks : List (Vector Word 16)) : Vector Word 8 :=
  blocks.foldl compressFn cv

/-- R130: byte `4i + k` of the digest is byte `k` of word `i`, most significant first. -/
def digestWords (cs : List Word) : List Byte :=
  cs.flatMap (fun c => [c.extractLsb' 24 8, c.extractLsb' 16 8, c.extractLsb' 8 8, c.extractLsb' 0 8])

/-- R130, `Digest(c0..c7)`. -/
def digest (cv : Vector Word 8) : List Byte := digestWords cv.toList

/-- R129: the message blocks of a padded message. -/
def messageBlocks (p : List Byte) : List (Vector Word 16) := blocksOf (p.length / 64) p

/-- R129, `compress_all(msg)` as the function it computes; `compressAllProgram` is the host program. -/
def compressAll (msg : List Byte) : Option (List Byte) :=
  (pad msg).map (fun p => digest (compressBlocks initialValue (messageBlocks p)))

end Sys2Proof.Machine
end

