-- ==== Sys2Proof/Machine/HostProgram.lean ====
section
/-! DEFINITION. Host programs and their pseudo-instructions (30_encoding.md R70, R71), a host program's run beside the
engine under any schedule (20_memory.md R56), when a run has settled (43_host_protocol.md R133), and `compress_all` as a
host program (R129). A host program is no state of the machine: each of its accesses is one `step`. -/

namespace Sys2Proof.Machine

/-- R70: `WR <reg>, <value>`. -/
def hostWr (r : Reg) (v : Word) : Event := .write (offsetOf r) 4 v

/-- R70: `RD <reg>`. -/
def hostRd (r : Reg) : Event := .read (offsetOf r) 4

/-- R70: a host program. The host computes between its accesses and branches on what it has read, so what follows a read
is a function of the word; its computations touch no engine state and take no step. -/
inductive HostProgram (α : Type)
  /-- The program stops, with a result. -/
  | done (result : α)
  /-- R70: `WR r, v`. -/
  | wr (r : Reg) (v : Word) (next : HostProgram α)
  /-- R70: `RD r -> x`. -/
  | rd (r : Reg) (next : Word → HostProgram α)
  /-- R71: `WAIT`, the loop `L: RD STATUS -> s ; if (s & 1) = 1 goto L`. -/
  | wait (next : HostProgram α)

/-! ## The pseudo-instructions of R71 -/

/-- R70: `CMD <mnemonic>`. DESIGN CHOICE (log entry 9): a command without an encoding is not refused here; the word that
`encode` answers for it is written as it stands. -/
def hostCmd {α : Type} (i : Instr) (next : HostProgram α) : HostProgram α := .wr .cmd (encode i) next

/-- Writes in order. -/
def writeAll {α : Type} (l : List (Reg × Word)) (next : HostProgram α) : HostProgram α :=
  l.foldr (fun p k => .wr p.1 p.2 k) next

/-- Reads in order, then what follows from the words read. -/
def readAll {α : Type} : List Reg → (List Word → HostProgram α) → HostProgram α
  | [], k => k []
  | r :: rs, k => .rd r (fun x => readAll rs (fun xs => k (x :: xs)))

/-- R71: `LOADM w0, ..., w15`. -/
def loadM {α : Type} (ws : Vector Word 16) (next : HostProgram α) : HostProgram α :=
  writeAll ((List.finRange 16).map (fun i => (.m i, wordAt ws i))) next

/-- R71: `LOADCV c0, ..., c7`. -/
def loadCV {α : Type} (cs : Vector Word 8) (next : HostProgram α) : HostProgram α :=
  writeAll ((List.finRange 8).map (fun i => (.cv i, wordAt cs i))) next

/-- R71: `STEP n`. DESIGN CHOICE (log entry 9) for n above 127, which has no encoding, see `hostCmd`. -/
def stepRounds {α : Type} (n : Nat) (next : HostProgram α) : HostProgram α := hostCmd (.round n) (.wait next)

/-- R71: `HASHBLK w0, ..., w15`. -/
def hashBlock {α : Type} (ws : Vector Word 16) (next : HostProgram α) : HostProgram α :=
  loadM ws (hostCmd .compress (.wait next))

/-- R71: `PRIM <f>, x, y, z -> r`, where f is ROTR s, CH, MAJ, BSIG0, BSIG1, SSIG0 or SSIG1. DESIGN CHOICE (log entry 9):
the same accesses stand for any other f, and for ROTR s with s above 31, see `hostCmd`. -/
def primitiveCall {α : Type} (f : Instr) (x y z : Word) (next : Word → HostProgram α) : HostProgram α :=
  .wr .opx x (.wr .opy y (.wr .opz z (hostCmd f (.wait (.rd .pres next)))))

/-- R71: `CLRERR`. -/
def clearErr {α : Type} (next : HostProgram α) : HostProgram α := .wr .err 0x0000001F#32 next

/-- R71: `RDSTATE -> a, ..., h`. -/
def readState {α : Type} (k : List Word → HostProgram α) : HostProgram α :=
  readAll ((List.finRange 8).map .work) k

/-- R71: `RDCV -> c0..c7`. -/
def readCV {α : Type} (k : List Word → HostProgram α) : HostProgram α :=
  readAll ((List.finRange 8).map .cv) k

/-- R129: the blocks in order, each loaded, compressed and waited for. -/
def hashBlocks {α : Type} : List (Vector Word 16) → HostProgram α → HostProgram α
  | [], next => next
  | m :: ms, next => hashBlock m (hashBlocks ms next)

/-- R129, `compress_all(msg)` on the engine: WAIT; INIT; WAIT; for each block LOADM, COMPRESS, WAIT; RDCV; and the
digest of the words read. `none` is the host's OverflowError (R127). -/
def compressAllProgram (msg : List Byte) : Option (HostProgram (List Byte)) :=
  (pad msg).map (fun p =>
    .wait (hostCmd .init (.wait (hashBlocks (messageBlocks p) (readCV (fun cs => .done (digestWords cs)))))))

/-! ## Running a host program -/

/-- R133: whether the host's last read of STATUS returned BUSY = 0 and no command was accepted since, after a step `ev`
that leaves `u`. An accepted command leaves BUSY = 1 in its own step (60_exceptions.md R139), so a read of STATUS older
than the last accepted command does not count: DEDUCED, log entry 12. -/
def settledAfter (ev : Event) (u : State) (settled : Bool) : Bool :=
  (ev == hostRd .status || settled) && !u.engine.busy

/-- R70: the program's next access, `none` once it has stopped. -/
def HostProgram.access {α : Type} : HostProgram α → Option Event
  | .done _ => none
  | .wr r v _ => some (hostWr r v)
  | .rd r _ => some (hostRd r)
  | .wait _ => some (hostRd .status)

/-- R70, R71: what is left of the program once its next access has read `x`. -/
def HostProgram.rest {α : Type} (x : Word) : HostProgram α → HostProgram α
  | .done a => .done a
  | .wr _ _ next => next
  | .rd _ next => next x
  | .wait next => if x.getLsbD 0 then .wait next else next

/-- The word a host step reads, 0 for a step that reads none. -/
def wordRead (e : Engine) : Event → Word
  | .read off n => memRead e off n
  | .write _ _ _ | .engine | .reset => 0

/-- The two agents that a schedule chooses between (20_memory.md R56; 00_scope.md R11: the trace sink never moves). -/
inductive Agent
  | host
  | engine
  deriving DecidableEq, Repr

/-- A host program on its way, beside the system. -/
structure HostRun (α : Type) where
  program : HostProgram α
  system : State
  /-- R133, see `settledAfter`. -/
  settled : Bool

/-- A host program about to begin, in `s`. -/
def HostRun.start {α : Type} (p : HostProgram α) (s : State) : HostRun α := ⟨p, s, false⟩

/-- One step `ev` of the machine, with `p` what is then left of the program. The program stands for the agenda. -/
def HostRun.take {α : Type} (ev : Event) (p : HostProgram α) (r : HostRun α) :
    Host.Outcome (HostRun α) Fault Refusal :=
  match step (r.system.withAgenda [ev]) with
  | .next u => .next ⟨p, u, settledAfter ev u r.settled⟩
  | .fault f => .fault f
  | .refused f => .refused f

/-- 20_memory.md R56: one agent moves. A program that has stopped takes no step. -/
def HostRun.move {α : Type} (a : Agent) (r : HostRun α) : Host.Outcome (HostRun α) Fault Refusal :=
  match a with
  | .engine => r.take .engine r.program
  | .host =>
    match r.program.access with
    | none => .next r
    | some ev => r.take ev (r.program.rest (wordRead r.system.engine ev))

/-- 20_memory.md R56: the agents move in the order of a schedule. -/
def HostRun.moves {α : Type} : List Agent → HostRun α → Host.Outcome (HostRun α) Fault Refusal
  | [], r => .next r
  | a :: l, r =>
    match r.move a with
    | .next q => HostRun.moves l q
    | .fault f => .fault f
    | .refused f => .refused f

/-- R133: the program has stopped, after a read of STATUS that returned BUSY = 0 with no command accepted since
(that last clause DEDUCED, log entry 12). -/
def HostRun.ended {α : Type} (r : HostRun α) : Bool := r.program.access.isNone && r.settled

/-! ## The end of a run that the agenda gives -/

/-- The step that `s` takes next: the head of the agenda, or the engine's. -/
def nextEvent (s : State) : Event := s.agenda.headD .engine

/-- R133 along `k` steps from `s`: `settledAfter` each of them. -/
def settledOver : Nat → Bool → State → Bool
  | 0, b, _ => b
  | k + 1, b, s =>
    match step s with
    | .next u => settledOver k (settledAfter (nextEvent s) u b) u
    | .fault _ | .refused _ => false

/-- R133: the result of a run, the register state as the host reads it (20_memory.md R44) and the records emitted. -/
structure RunResult where
  registers : List Word
  trace : List TraceRecord
  deriving DecidableEq, Repr

/-- R133: the result of a run from `s` that ends in `u`. -/
def runResult (s u : State) : RunResult where
  registers := (List.range 256).map (fun i => memRead u.engine (BitVec.ofNat 10 (4 * i)) 4)
  trace := u.trace.drop s.trace.length

end Sys2Proof.Machine
end

