-- ==== Sys2Proof/Safety.lean ====
section
/-! DEFINITION. What a safe engine state is: the invariants of 10_state.md R33 with what PEND may hold
(10_state.md R31, 60_exceptions.md R139); and when a host's run has ended (43_host_protocol.md R133). -/

namespace Sys2Proof.Safety

open Sys2Proof.Machine

/-- What PEND may hold (R31): the micro-steps still to perform of an accepted command, in a phase its acceptance or
its earlier micro-steps left (R139; 42_compression.md R104 to R112; 40_primitives.md R88 to R94). -/
def PendingOk (e : Engine) (p : Pending) : Prop :=
  match p.op with
  | .nop => p.remaining = [.nop]
  | .init => p.remaining = [.init] ∧ e.isOpen = false
  | .begin => p.remaining = [.begin] ∧ e.isOpen = false
  | .round n => p.remaining = List.replicate p.remaining.length .round ∧ 1 ≤ p.remaining.length ∧
      p.remaining.length ≤ n ∧ e.isOpen = true ∧ e.t + p.remaining.length ≤ 64
  | .finish => p.remaining = [.finish] ∧ e.isOpen = true ∧ e.t = 64
  | .compress => (p.remaining = .begin :: (List.replicate 64 .round ++ [.finish]) ∧ e.isOpen = false) ∨
      (p.remaining = List.replicate (64 - e.t) .round ++ [.finish] ∧ e.isOpen = true)
  | .abort => p.remaining = [.abort]
  | .rotr n => p.remaining = [.rotr n]
  | .ch => p.remaining = [.ch]
  | .maj => p.remaining = [.maj]
  | .bsig0 => p.remaining = [.bsig0]
  | .bsig1 => p.remaining = [.bsig1]
  | .ssig0 => p.remaining = [.ssig0]
  | .ssig1 => p.remaining = [.ssig1]

/-- The invariant of the engine. -/
structure Inv (e : Engine) : Prop where
  /-- R33.1: `0 <= T <= 64`. -/
  t_le : e.t ≤ 64
  /-- R33.2, first half; it holds whether or not a block is open. -/
  w_unlatched : ∀ j, e.t ≤ j → j < 64 → wordAt e.w j = 0
  /-- R33.2, second half, for the words the recurrence gives (R97). -/
  w_latched : ∀ j, 16 ≤ j → j < e.t → wordAt e.w j = scheduleWord e.m e.w j
  /-- R33.3: BUSY = 1 exactly when PEND is not none. -/
  busy_iff : e.busy = e.pend.isSome
  /-- R31: a pending record is one an accepted command leaves. -/
  pend_ok : ∀ p, e.pend = some p → PendingOk e p

/-- The invariant of the system: the other agents hold nothing it constrains. -/
abbrev SystemInv (s : State) : Prop := Inv s.engine

/-- The engine is idle: BUSY = 0 and nothing pending (60_exceptions.md R148). -/
def Idle (e : Engine) : Prop := e.busy = false ∧ e.pend = none

/-- 43_host_protocol.md R133: after `k` steps from `s` the run has ended in `u`. The host takes no further step, and its
last read of STATUS in the run returned BUSY = 0. A run in which the host stops while BUSY = 1 has not ended. DEDUCED
from that (log entry 12): no command was accepted since that read, so the run has not ended even when the engine has
since finished. -/
def RunEnded (k : Nat) (s u : State) : Prop :=
  Sys2Proof.core.run k s = .next u ∧ u.agenda = [] ∧ settledOver k false s = true

/-- R139, `MicroSteps(c)`: the list of micro-steps that each command's rule gives (70_reset_and_hazards.md R160: 1, n
or 66 of them). -/
def microSteps : Instr → List MicroStep
  | .nop => [.nop]
  | .init => [.init]
  | .begin => [.begin]
  | .round n => List.replicate n .round
  | .finish => [.finish]
  | .compress => [.begin] ++ List.replicate 64 .round ++ [.finish]
  | .abort => [.abort]
  | .rotr n => [.rotr n]
  | .ch => [.ch]
  | .maj => [.maj]
  | .bsig0 => [.bsig0]
  | .bsig1 => [.bsig1]
  | .ssig0 => [.ssig0]
  | .ssig1 => [.ssig1]

/-- A primitive's micro-step (40_primitives.md R76). -/
def isPrimitiveStep : MicroStep → Bool
  | .rotr _ | .ch | .maj | .bsig0 | .bsig1 | .ssig0 | .ssig1 => true
  | .nop | .init | .begin | .round | .finish | .abort => false

/-- R138: the state after a rejection that sets the ERR bit `bit` and has no other effect. -/
def rejected (bit : BitVec 5) (s : State) : State :=
  { s with engine := { s.engine with err := s.engine.err ||| bit } }

/-- R139: the state after command `i` is accepted, `PEND <- (i, MicroSteps(i))` and `BUSY <- 1`. -/
def accepted (i : Instr) (s : State) : State :=
  { s with engine := { s.engine with pend := some ⟨i, microSteps i⟩, busy := true } }

/-- R139, R140: while BUSY = 1 command `i` is rejected with the BUSY error and nothing else happens. -/
def TurnedAwayWhenBusy (i : Instr) : Prop :=
  ∀ s : State, s.engine.busy = true → exec i s = .next (rejected 0x08#5 s)

/-- The step from `s` is the engine's: the agenda names it, or names nobody (20_memory.md R56). -/
def EngineMoves (s : State) : Prop := s.agenda = [] ∨ ∃ rest, s.agenda = .engine :: rest

/-- The step from `s` performs micro-step `m`. -/
def Performs (m : MicroStep) (s : State) : Prop :=
  EngineMoves s ∧ ∃ op later, s.engine.pend = some ⟨op, m :: later⟩

/-- The step from `s` is the hardware reset (70_reset_and_hazards.md R151). -/
def Resets (s : State) : Prop := ∃ rest, s.agenda = .reset :: rest

/-- The step from `s` is a host write of `v` to register `r`, in the legal shape, with BUSY = 0. -/
def HostWrites (r : Reg) (v : Word) (s : State) : Prop :=
  s.engine.busy = false ∧ ∃ rest, s.agenda = .write (offsetOf r) 4 v :: rest

/-- Command `i` is issued and the engine then takes `k` turns with no other agent between them. -/
def runCommand (i : Instr) (k : Nat) (s : State) : Host.Outcome State Fault Refusal :=
  match exec i s with
  | .next t => engineTurns k t
  | .fault r => .fault r
  | .refused r => .refused r

/-- ROUND commands with the counts `ns`, each run to its end before the next is issued. -/
def runRounds : List Nat → State → Host.Outcome State Fault Refusal
  | [], s => .next s
  | n :: ns, s =>
    match runCommand (.round n) n s with
    | .next u => runRounds ns u
    | .fault r => .fault r
    | .refused r => .refused r

end Sys2Proof.Safety
end

