-- ==== Sys2Proof/Certificates/Slice0/Obligations.lean ====
section
/-! DEFINITION. The statements for the provers. Each docstring cites the rule of spec/ the statement formalises. -/

open Sys2Proof Sys2Proof.Machine Sys2Proof.Safety

/-! ## Encoding (30_encoding.md) -/

/-- R68: `Decode(Encode(c)) = c` for every command with operands in the encodable range (R64, R65), through the word and
through the opcode table's numbering. -/
def Obligations.DecodeInvertsEncode : Prop :=
  ∀ i : Instr, i.WellFormed → decode (encode i) = .ok i ∧ decodeTableWord 32 (encode i).toNat = some i

/-- R68: a word that decodes is the encoding of the command it decodes to, so no bit of a legal word is ignored
(R67: no reserved-but-ignored encodings). -/
def Obligations.EncodeInvertsDecode : Prop :=
  ∀ (v : Word) (i : Instr), decode v = .ok i → i.WellFormed ∧ encode i = v

/-- R63: a word selects a row when `(v & mask) = match`; the decoder gives that row's command; no word selects two rows.
-/
def Obligations.DecodeSelectsTheRow : Prop :=
  (∀ (v : Word) (i : Instr), decode v = .ok i → v &&& rowMask i = rowWord i) ∧
  (∀ (v : Word) (i : Instr), v &&& rowMask i = rowWord i → ∃ j, decode v = .ok j ∧ opcodeOf j = opcodeOf i) ∧
  (∀ (v : Word) (i j : Instr), v &&& rowMask i = rowWord i → v &&& rowMask j = rowWord j → opcodeOf i = opcodeOf j)

/-- R66, R67: an undefined OPC is illegal whatever the other bits, a set reserved bit is illegal, and the only no-op word
is 0. -/
def Obligations.IllegalWordsAreRejected : Prop :=
  ∀ v : Word,
    ((0x07 ≤ v.toNat % 256 ∧ v.toNat % 256 ≤ 0x0F) ∨ 0x17 ≤ v.toNat % 256 → decode v = .error .undefinedOpcode) ∧
    (v.toNat % 256 = 0x03 → v.toNat / 2 ^ 15 ≠ 0 → decode v = .error .reservedBitSet) ∧
    (v.toNat % 256 = 0x10 → v.toNat / 2 ^ 13 ≠ 0 → decode v = .error .reservedBitSet) ∧
    ((v.toNat % 256 ≤ 0x06 ∧ v.toNat % 256 ≠ 0x03) ∨ (0x11 ≤ v.toNat % 256 ∧ v.toNat % 256 ≤ 0x16) →
      v.toNat / 2 ^ 8 ≠ 0 → decode v = .error .reservedBitSet) ∧
    (decode v = .ok .nop ↔ v = 0)

/-- R69, R66: the worked encodings of the assembler section decode to what they stand for, and the worked illegal words
are rejected. -/
def Obligations.WrittenWordsDecode : Prop :=
  decode 0x00000103#32 = .ok (.round 1) ∧ decode 0x00000D03#32 = .ok (.round 13) ∧
  decode 0x00004003#32 = .ok (.round 64) ∧ decode 0x00000610#32 = .ok (.rotr 6) ∧
  decode 0x00000005#32 = .ok .compress ∧ decode 0x00000000#32 = .ok .nop ∧ decode 0x00000014#32 = .ok .bsig1 ∧
  decode 0x00008003#32 = .error .reservedBitSet ∧ decode 0x00002010#32 = .error .reservedBitSet ∧
  decode 0x00000101#32 = .error .reservedBitSet ∧ decode 0x00000007#32 = .error .undefinedOpcode

/-! ## The step (20_memory.md R56, 60_exceptions.md R139, R140) -/

/-- R139, R45: when the host's next step writes to CMD a word that decodes to `i`, the step is `exec i`, with the event
taken off the agenda, BUSY or not: acceptance checks BUSY itself (42_compression.md, opening paragraph). -/
def Obligations.StepRunsDecodedCommand : Prop :=
  ∀ (s : State) (v : Word) (rest : List Event) (i : Instr),
    s.agenda = .write 0x00C#10 4 v :: rest → decode v = .ok i → step s = exec i { s with agenda := rest }

/-- The fetch interface of this model (log entry 3): a placed well-formed command is decoded and run by the very next
step, with nothing else changed. -/
def Obligations.PlacedCommandRunsNext : Prop :=
  ∀ (s : State) (i : Instr), i.WellFormed → step (s.withFetchWord 32 (encode i).toNat) = exec i s

/-- R56, R148: the engine moves when the agenda names it or names nobody; with nothing pending it takes no step. The
agenda is the model's way to say which agent moves (log entry 1). -/
def Obligations.EngineMovesWhenScheduled : Prop :=
  ∀ s : State,
    (s.agenda = [] → step s = engineTurn s) ∧
    (∀ rest, s.agenda = .engine :: rest → step s = engineTurn { s with agenda := rest }) ∧
    (s.agenda = [] → s.engine.pend = none → step s = .next s) ∧
    (∀ rest, s.agenda = .engine :: rest → s.engine.pend = none → step s = .next { s with agenda := rest })

/-- R140: the check order of every host write. The first check that fails records its bit and nothing else changes. -/
def Obligations.WriteCheckOrder : Prop :=
  ∀ (s : State) (off : BitVec 10) (n : Nat) (v : Word) (rest : List Event),
    s.agenda = .write off n v :: rest →
    (n ≠ 4 ∨ off.toNat % 4 ≠ 0 → step s = .next (rejected 0x10#5 { s with agenda := rest })) ∧
    (n = 4 → off.toNat % 4 = 0 →
      (s.engine.busy = true → step s = .next (rejected 0x08#5 { s with agenda := rest })) ∧
      (s.engine.busy = false →
        (off.toNat = 0x004 ∨ off.toNat = 0x010 ∨ off.toNat = 0x018 ∨ off.toNat = 0x01C ∨
            (0x040 ≤ off.toNat ∧ off.toNat < 0x080) ∨ 0x0CC ≤ off.toNat →
          step s = .next (rejected 0x10#5 { s with agenda := rest })) ∧
        (0x020 ≤ off.toNat → off.toNat < 0x040 → s.engine.isOpen = true →
          step s = .next (rejected 0x02#5 { s with agenda := rest })) ∧
        (off.toNat = 0x00C → ∀ r, decode v = .error r →
          step s = .next (rejected 0x01#5 { s with agenda := rest })) ∧
        (off.toNat = 0x00C → ∀ k, decode v = .ok (.round k) →
          (s.engine.isOpen = false → step s = .next (rejected 0x02#5 { s with agenda := rest })) ∧
          (s.engine.isOpen = true → k = 0 ∨ 64 < s.engine.t + k →
            step s = .next (rejected 0x04#5 { s with agenda := rest }))) ∧
        (off.toNat = 0x00C → ∀ i, decode v = .ok i → i = .init ∨ i = .begin ∨ i = .compress →
          s.engine.isOpen = true → step s = .next (rejected 0x02#5 { s with agenda := rest })) ∧
        (off.toNat = 0x00C → decode v = .ok .finish → s.engine.isOpen = false ∨ s.engine.t ≠ 64 →
          step s = .next (rejected 0x02#5 { s with agenda := rest }))))

/-- R139, `Accept(v)`, run by the host's CMD write step after the shape and BUSY checks: ILLEGAL, then the command's own
conditions, else PEND and BUSY are set. -/
def Obligations.AcceptanceConditions : Prop :=
  ∀ s : State, s.engine.busy = false →
    (∀ v rest, s.agenda = .write 0x00C#10 4 v :: rest → step s = acceptWord v { s with agenda := rest }) ∧
    (∀ v r, decode v = .error r → acceptWord v s = .next (rejected 0x01#5 s)) ∧
    (∀ v i, decode v = .ok i → acceptWord v s = exec i s) ∧
    (∀ i, i = .init ∨ i = .begin ∨ i = .compress → s.engine.isOpen = true → exec i s = .next (rejected 0x02#5 s)) ∧
    (∀ n, s.engine.isOpen = false → exec (.round n) s = .next (rejected 0x02#5 s)) ∧
    (∀ n, s.engine.isOpen = true → n = 0 ∨ 64 < s.engine.t + n →
      exec (.round n) s = .next (rejected 0x04#5 s)) ∧
    (s.engine.isOpen = false ∨ s.engine.t ≠ 64 → exec .finish s = .next (rejected 0x02#5 s)) ∧
    (∀ i, (i = .init ∨ i = .begin ∨ i = .compress → s.engine.isOpen = false) →
      (∀ n, i = .round n → s.engine.isOpen = true ∧ 1 ≤ n ∧ s.engine.t + n ≤ 64) →
      (i = .finish → s.engine.isOpen = true ∧ s.engine.t = 64) →
      exec i s = .next (accepted i s))

/-- 42_compression.md, opening paragraph, and 40_primitives.md R76: acceptance checks BUSY before anything else a command
asks. -/
def Obligations.BusyCommandIsRejected : Prop :=
  ∀ (i : Instr) (s : State), s.engine.busy = true → exec i s = .next (rejected 0x08#5 s)

/-- R138, R140: one write records exactly one error bit and does nothing else, or records none and leaves ERR alone but
for a write-1-to-clear of ERR. -/
def Obligations.WriteRecordsAtMostOneError : Prop :=
  ∀ (s u : State) (off : BitVec 10) (n : Nat) (v : Word) (rest : List Event),
    s.agenda = .write off n v :: rest → step s = .next u →
    (∃ bit : BitVec 5, (bit = 1 ∨ bit = 2 ∨ bit = 4 ∨ bit = 8 ∨ bit = 16) ∧
      u = rejected bit { s with agenda := rest }) ∨
    u.engine.err = s.engine.err ∨
    (off = 0x008#10 ∧ u.engine.err = s.engine.err &&& ~~~(v.extractLsb' 0 5))

/-- R141, R26: ERR bits are sticky; only a write of 1 to the bit and reset clear one. -/
def Obligations.ErrBitsAreSticky : Prop :=
  ∀ (s u : State) (k : Nat), step s = .next u → s.engine.err.getLsbD k = true → u.engine.err.getLsbD k = false →
    Resets s ∨ ∃ v, HostWrites .err v s ∧ v.getLsbD k = true

/-! ## The commands: acceptance, completion and frame -/

/-- R106: NOP. From idle it is accepted, its one micro-step ends it, and the state is as before it. -/
def Obligations.NopChangesNothing : Prop :=
  encode .nop = 0x00000000#32 ∧ (∀ v, decode v = .ok .nop ↔ v = 0) ∧ TurnedAwayWhenBusy .nop ∧
  ∀ s : State, Idle s.engine →
    ∃ t, exec .nop s = .next t ∧ t = accepted .nop s ∧ engineTurn t = .next s

/-- R107: INIT loads IV, clears BLKCNT, changes nothing else, and needs OPEN = 0. -/
def Obligations.InitLoadsStandardValue : Prop :=
  encode .init = 0x00000001#32 ∧ TurnedAwayWhenBusy .init ∧
  (∀ s : State, s.engine.busy = false → s.engine.isOpen = true → exec .init s = .next (rejected 0x02#5 s)) ∧
  ∀ s : State, Idle s.engine → s.engine.isOpen = false →
    ∃ t, exec .init s = .next t ∧ t = accepted .init s ∧
      engineTurn t = .next { s with engine := { s.engine with
        cv := #v[0x6A09E667, 0xBB67AE85, 0x3C6EF372, 0xA54FF53A, 0x510E527F, 0x9B05688C, 0x1F83D9AB, 0x5BE0CD19]
        blkcnt := 0 } }

/-- R108: BEGIN copies CV into A..H, clears W and T, sets OPEN, changes nothing else (no trace record, M not read), and
needs OPEN = 0. -/
def Obligations.BeginOpensBlock : Prop :=
  encode .begin = 0x00000002#32 ∧ TurnedAwayWhenBusy .begin ∧
  (∀ s : State, s.engine.busy = false → s.engine.isOpen = true → exec .begin s = .next (rejected 0x02#5 s)) ∧
  ∀ s : State, Idle s.engine → s.engine.isOpen = false →
    ∃ t, exec .begin s = .next t ∧ t = accepted .begin s ∧
      engineTurn t = .next { s with engine := { s.engine with
        work := ⟨s.engine.cv[0], s.engine.cv[1], s.engine.cv[2], s.engine.cv[3],
          s.engine.cv[4], s.engine.cv[5], s.engine.cv[6], s.engine.cv[7]⟩
        w := Vector.replicate 64 0
        t := 0
        isOpen := true } }

/-- R105: the round micro-step belongs to ROUND and COMPRESS alone. At T = t < 64 it latches W[t] (R97), sets A..H by
Round and T to t + 1, emits a record exactly when TRACE_EN = 1, and moves PEND and BUSY on by R56; nothing else changes. -/
def Obligations.RoundStepEffect : Prop :=
  (∀ i, .round ∈ microSteps i → (∃ n, i = .round n) ∨ i = .compress) ∧
  ∀ (s : State) (op : Instr) (later : List MicroStep),
    s.engine.pend = some ⟨op, .round :: later⟩ → s.engine.t < 64 →
    let x := if s.engine.t < 16 then wordAt s.engine.m s.engine.t
      else ssig1Fn (wordAt s.engine.w (s.engine.t - 2)) + wordAt s.engine.w (s.engine.t - 7) +
        ssig0Fn (wordAt s.engine.w (s.engine.t - 15)) + wordAt s.engine.w (s.engine.t - 16)
    let after := roundFn s.engine.work s.engine.t x
    engineTurn s = .next { s with
      engine := { s.engine with
        w := s.engine.w.setIfInBounds s.engine.t x
        work := after
        t := s.engine.t + 1
        pend := if later = [] then none else some ⟨op, later⟩
        busy := if later = [] then false else s.engine.busy }
      trace := if s.engine.traceEn = true then s.trace ++ [⟨s.engine.blkcnt, s.engine.t, after⟩] else s.trace }

/-- R104: ROUND n, accepted with OPEN = 1 and 1 <= n <= 64 - T, performs rounds T..T+n-1 in order: each latches its
schedule word and records its state when TRACE_EN = 1; T advances by n, OPEN stays 1, nothing else changes. -/
def Obligations.RoundCommandRunsItsRounds : Prop :=
  (∀ n, n ≤ 127 → encode (.round n) = 0x00000003#32 ||| (BitVec.ofNat 32 n <<< 8)) ∧
  (∀ n, TurnedAwayWhenBusy (.round n)) ∧
  (∀ (s : State) (n : Nat), s.engine.busy = false →
    (s.engine.isOpen = false → exec (.round n) s = .next (rejected 0x02#5 s)) ∧
    (s.engine.isOpen = true → n = 0 ∨ 64 < s.engine.t + n → exec (.round n) s = .next (rejected 0x04#5 s))) ∧
  ∀ (s : State) (n : Nat), Idle s.engine → s.engine.isOpen = true → 1 ≤ n → s.engine.t + n ≤ 64 →
    ∃ t u, exec (.round n) s = .next t ∧ t = accepted (.round n) s ∧ engineTurns n t = .next u ∧
      u.engine = { s.engine with
        work := rounds u.engine.w s.engine.work s.engine.t n
        w := u.engine.w
        t := s.engine.t + n } ∧
      (∀ j, j < s.engine.t ∨ s.engine.t + n ≤ j → wordAt u.engine.w j = wordAt s.engine.w j) ∧
      (∀ j, s.engine.t ≤ j → j < s.engine.t + n →
        wordAt u.engine.w j = scheduleWord s.engine.m u.engine.w j) ∧
      u.agenda = s.agenda ∧ u.reads = s.reads ∧
      u.trace = s.trace ++ (if s.engine.traceEn = true then
        (List.range n).map (fun k => ⟨s.engine.blkcnt, s.engine.t + k,
          rounds u.engine.w s.engine.work s.engine.t (k + 1)⟩) else [])

/-- R109: FINISH adds A..H to CV word by word mod 2^32, increments BLKCNT mod 2^32, clears OPEN, changes nothing else,
and needs OPEN = 1 and T = 64. -/
def Obligations.FinishFoldsBlock : Prop :=
  encode .finish = 0x00000004#32 ∧ TurnedAwayWhenBusy .finish ∧
  (∀ s : State, s.engine.busy = false → s.engine.isOpen = false ∨ s.engine.t ≠ 64 →
    exec .finish s = .next (rejected 0x02#5 s)) ∧
  ∀ s : State, Idle s.engine → s.engine.isOpen = true → s.engine.t = 64 →
    ∃ t, exec .finish s = .next t ∧ t = accepted .finish s ∧
      engineTurn t = .next { s with engine := { s.engine with
        cv := #v[s.engine.cv[0] + s.engine.work.a, s.engine.cv[1] + s.engine.work.b,
          s.engine.cv[2] + s.engine.work.c, s.engine.cv[3] + s.engine.work.d,
          s.engine.cv[4] + s.engine.work.e, s.engine.cv[5] + s.engine.work.f,
          s.engine.cv[6] + s.engine.work.g, s.engine.cv[7] + s.engine.work.h]
        blkcnt := s.engine.blkcnt + 1
        isOpen := false } }

/-- R110, R113: COMPRESS from idle with OPEN = 0 takes 66 engine turns and leaves CV = Compress(CV, M), W = Expand(M),
A..H the state after round 63, T = 64, BLKCNT + 1, OPEN = 0, and everything else unchanged; with TRACE_EN = 1 it emits
exactly 64 records, round indices 0 to 63 in order. R115: the record of round t holds the state after rounds 0..t.
Between its first and last micro-step OPEN = 1, BUSY = 1, CV is as before, and T counts the rounds done. -/
def Obligations.CompressComputesCompression : Prop :=
  encode .compress = 0x00000005#32 ∧ TurnedAwayWhenBusy .compress ∧
  (∀ s : State, s.engine.busy = false → s.engine.isOpen = true → exec .compress s = .next (rejected 0x02#5 s)) ∧
  ∀ s : State, Idle s.engine → s.engine.isOpen = false →
    ∃ t u, exec .compress s = .next t ∧ t = accepted .compress s ∧ engineTurns 66 t = .next u ∧
      u.engine = { s.engine with
        cv := compressFn s.engine.cv s.engine.m
        work := rounds (expand s.engine.m) (Working.ofVector s.engine.cv) 0 64
        w := expand s.engine.m
        t := 64
        blkcnt := s.engine.blkcnt + 1 } ∧
      (∀ k, 1 ≤ k → k ≤ 65 → ∃ v, engineTurns k t = .next v ∧ v.engine.isOpen = true ∧ v.engine.busy = true ∧
        v.engine.t = k - 1 ∧ v.engine.cv = s.engine.cv) ∧
      u.agenda = s.agenda ∧ u.reads = s.reads ∧
      u.trace = s.trace ++ (if s.engine.traceEn = true then
        (List.range 64).map (fun k => ⟨s.engine.blkcnt, k,
          rounds (expand s.engine.m) (Working.ofVector s.engine.cv) 0 (k + 1)⟩) else [])

/-- R112: ABORT clears OPEN in any phase and changes nothing else. -/
def Obligations.AbortClosesWithoutFold : Prop :=
  encode .abort = 0x00000006#32 ∧ TurnedAwayWhenBusy .abort ∧
  ∀ s : State, Idle s.engine →
    ∃ t, exec .abort s = .next t ∧ t = accepted .abort s ∧
      engineTurn t = .next { s with engine := { s.engine with isOpen := false } }

/-- R88, R76, R77: ROTR s writes PRES with OPX rotated right by s, in any phase, and changes nothing else. -/
def Obligations.RotrWritesResult : Prop :=
  (∀ n, n ≤ 31 → encode (.rotr n) = 0x00000010#32 ||| (BitVec.ofNat 32 n <<< 8)) ∧
  (∀ v : Word, v.toNat % 256 = 0x10 → v.toNat / 2 ^ 13 % 4 ≠ 0 → decode v = .error .reservedBitSet) ∧
  (∀ n, TurnedAwayWhenBusy (.rotr n)) ∧
  ∀ (s : State) (n : Nat), n ≤ 31 → Idle s.engine →
    ∃ t, exec (.rotr n) s = .next t ∧ t = accepted (.rotr n) s ∧
      engineTurn t = .next { s with engine := { s.engine with pres := s.engine.opx.rotateRight n } }

/-- R89, R90: CH and MAJ write PRES from OPX, OPY, OPZ, in any phase, and change nothing else. -/
def Obligations.ChAndMajWriteResult : Prop :=
  encode .ch = 0x00000011#32 ∧ encode .maj = 0x00000012#32 ∧ TurnedAwayWhenBusy .ch ∧ TurnedAwayWhenBusy .maj ∧
  ∀ s : State, Idle s.engine →
    (∃ t, exec .ch s = .next t ∧ t = accepted .ch s ∧
      engineTurn t = .next { s with engine := { s.engine with
        pres := (s.engine.opx &&& s.engine.opy) ^^^ (~~~s.engine.opx &&& s.engine.opz) } }) ∧
    (∃ t, exec .maj s = .next t ∧ t = accepted .maj s ∧
      engineTurn t = .next { s with engine := { s.engine with
        pres := (s.engine.opx &&& s.engine.opy) ^^^ (s.engine.opx &&& s.engine.opz) ^^^
          (s.engine.opy &&& s.engine.opz) } })

/-- R91 to R94 with R81 to R84: the mixing commands write PRES from OPX, in any phase, and change nothing else. -/
def Obligations.MixingCommandsWriteResult : Prop :=
  encode .bsig0 = 0x00000013#32 ∧ encode .bsig1 = 0x00000014#32 ∧ encode .ssig0 = 0x00000015#32 ∧
  encode .ssig1 = 0x00000016#32 ∧ TurnedAwayWhenBusy .bsig0 ∧ TurnedAwayWhenBusy .bsig1 ∧
  TurnedAwayWhenBusy .ssig0 ∧ TurnedAwayWhenBusy .ssig1 ∧
  ∀ s : State, Idle s.engine →
    let x := s.engine.opx
    (∃ t, exec .bsig0 s = .next t ∧ t = accepted .bsig0 s ∧
      engineTurn t = .next { s with engine := { s.engine with
        pres := x.rotateRight 2 ^^^ x.rotateRight 13 ^^^ x.rotateRight 22 } }) ∧
    (∃ t, exec .bsig1 s = .next t ∧ t = accepted .bsig1 s ∧
      engineTurn t = .next { s with engine := { s.engine with
        pres := x.rotateRight 6 ^^^ x.rotateRight 11 ^^^ x.rotateRight 25 } }) ∧
    (∃ t, exec .ssig0 s = .next t ∧ t = accepted .ssig0 s ∧
      engineTurn t = .next { s with engine := { s.engine with
        pres := x.rotateRight 7 ^^^ x.rotateRight 18 ^^^ x >>> 3 } }) ∧
    (∃ t, exec .ssig1 s = .next t ∧ t = accepted .ssig1 s ∧
      engineTurn t = .next { s with engine := { s.engine with
        pres := x.rotateRight 17 ^^^ x.rotateRight 19 ^^^ x >>> 10 } })

/-- R113, R110: a block stepped by BEGIN, ROUND a, ROUND b and FINISH, with a + b = 64, ends in the very state that
COMPRESS ends in, trace included. -/
def Obligations.SteppedBlockEqualsCompress : Prop :=
  ∀ (s : State) (a b : Nat), Idle s.engine → s.engine.isOpen = false → 1 ≤ a → 1 ≤ b → a + b = 64 →
    ∃ u₁ u₂ u₃ u, runCommand .begin 1 s = .next u₁ ∧ runCommand (.round a) a u₁ = .next u₂ ∧
      runCommand (.round b) b u₂ = .next u₃ ∧ runCommand .finish 1 u₃ = .next u ∧
      runCommand .compress 66 s = .next u

/-- R113, R110: the same for any number of ROUND commands, one ROUND 64 among them, whose counts are positive and add up
to 64. -/
def Obligations.AnyGroupingOfRoundsEqualsCompress : Prop :=
  ∀ (s : State) (ns : List Nat), Idle s.engine → s.engine.isOpen = false → (∀ n ∈ ns, 1 ≤ n) → ns.sum = 64 →
    ∃ u₁ u₂ u, runCommand .begin 1 s = .next u₁ ∧ runRounds ns u₁ = .next u₂ ∧ runCommand .finish 1 u₂ = .next u ∧
      runCommand .compress 66 s = .next u

/-! ## The functions (40_primitives.md, 41_schedule.md, 42_compression.md) -/

/-- R103: the round function, word by word. -/
def Obligations.RoundFunctionEquations : Prop :=
  ∀ (a b c d e f g h w : Word) (t : Fin 64),
    let t1 := h + (e.rotateRight 6 ^^^ e.rotateRight 11 ^^^ e.rotateRight 25) +
      ((e &&& f) ^^^ (~~~e &&& g)) + roundConstants[t] + w
    let t2 := (a.rotateRight 2 ^^^ a.rotateRight 13 ^^^ a.rotateRight 22) +
      ((a &&& b) ^^^ (a &&& c) ^^^ (b &&& c))
    roundFn ⟨a, b, c, d, e, f, g, h⟩ t w = ⟨t1 + t2, a, b, c, d + t1, e, f, g⟩

/-- R77: bit i of ROTR(x, n) is bit (i + n) mod 32 of x; ROTR(x, 0) = x; the rotation is a bijection. -/
def Obligations.RotationMovesBits : Prop :=
  ∀ n, n ≤ 31 →
    (∀ (x : Word) (i : Nat), i < 32 → (rotr x n).getLsbD i = x.getLsbD ((i + n) % 32)) ∧
    (∀ x : Word, 1 ≤ n → rotr x n = (x >>> n) ||| (x <<< (32 - n))) ∧
    (∀ x : Word, rotr x 0 = x) ∧ Function.Bijective (fun x : Word => rotr x n) ∧
    rotr 0xFFFFFFFF n = 0xFFFFFFFF ∧ rotr 0 n = 0

/-- R79, R80: CH chooses bit by bit, MAJ takes the majority bit by bit, and MAJ is symmetric. -/
def Obligations.ChoiceAndMajorityByBit : Prop :=
  ∀ (x y z : Word),
    (∀ i, i < 32 → (chFn x y z).getLsbD i = (if x.getLsbD i then y.getLsbD i else z.getLsbD i)) ∧
    (∀ i, i < 32 → (majFn x y z).getLsbD i =
      decide (2 ≤ (x.getLsbD i).toNat + (y.getLsbD i).toNat + (z.getLsbD i).toNat)) ∧
    majFn x y z = majFn y x z ∧ majFn x y z = majFn x z y ∧ chFn x y y = y ∧ majFn x x z = x ∧
    majFn x (~~~x) z = z

/-- R95, item 1: the four mixing functions are linear over GF(2). -/
def Obligations.MixingIsLinear : Prop :=
  ∀ f : Word → Word, f = bsig0Fn ∨ f = bsig1Fn ∨ f = ssig0Fn ∨ f = ssig1Fn →
    f 0 = 0 ∧ ∀ x y : Word, f (x ^^^ y) = f x ^^^ f y

/-- R95, item 2: each of the four mixing functions is a bijection on words. -/
def Obligations.MixingIsBijective : Prop :=
  Function.Bijective bsig0Fn ∧ Function.Bijective bsig1Fn ∧ Function.Bijective ssig0Fn ∧
    Function.Bijective ssig1Fn

/-- R96: Expand copies the 16 message words and satisfies the recurrence mod 2^32 for t in 16..63. -/
def Obligations.ExpandSatisfiesRecurrence : Prop :=
  ∀ m : Vector Word 16,
    (∀ t (h : t < 16), wordAt (expand m) t = m[t]) ∧
    (∀ t, 16 ≤ t → t < 64 → wordAt (expand m) t =
      ssig1Fn (wordAt (expand m) (t - 2)) + wordAt (expand m) (t - 7) + ssig0Fn (wordAt (expand m) (t - 15)) +
        wordAt (expand m) (t - 16))

/-- R98, R100: at T = 64 the schedule is the expansion of its own first 16 words, the ones latched from M, whatever the
host has written to M since. -/
def Obligations.ScheduleIsExpansionOfLatchedWords : Prop :=
  ∀ e : Engine, Inv e → e.t = 64 → e.w = expand (Vector.ofFn (fun j : Fin 16 => wordAt e.w j))

/-- R99, R46: W changes only by BEGIN's micro-step (all 0), by a round at its own index T, and by reset. -/
def Obligations.ScheduleWordsAreImmutable : Prop :=
  ∀ s u : State, step s = .next u → ∀ j, wordAt u.engine.w j ≠ wordAt s.engine.w j →
    Resets s ∨ (Performs .begin s ∧ wordAt u.engine.w j = 0) ∨ (Performs .round s ∧ j = s.engine.t)

/-- R48, R155: a value of M[i] with i < T plays no part in the open block: changing it before any number of engine turns
that open no new block changes nothing but M[i] after them. -/
def Obligations.LateMessageWriteHasNoEffect : Prop :=
  ∀ (k i : Nat) (v : Word) (s u : State), i < s.engine.t →
    (∀ p, s.engine.pend = some p → MicroStep.begin ∉ p.remaining) → engineTurns k s = .next u →
    engineTurns k { s with engine := { s.engine with m := s.engine.m.setIfInBounds i v } } =
      .next { u with engine := { u.engine with m := u.engine.m.setIfInBounds i v } }

/-! ## The trace (42_compression.md R111) -/

/-- R111: a round with TRACE_EN = 1 appends exactly one record, block index BLKCNT, round index T, the registers after
the round; no other step touches what the sink holds. -/
def Obligations.TraceRecordsEveryRound : Prop :=
  ∀ s u : State, step s = .next u →
    (Performs .round s → s.engine.traceEn = true →
      u.trace = s.trace ++ [⟨s.engine.blkcnt, s.engine.t, u.engine.work⟩]) ∧
    (¬ (Performs .round s ∧ s.engine.traceEn = true) → u.trace = s.trace)

/-- R111, R131: the trace has no effect on computation. Two systems that agree on the agenda and on the engine but for
TRACE_EN still agree so after any number of steps, whatever their sinks hold. -/
def Obligations.TraceHasNoEffectOnComputation : Prop :=
  ∀ (k : Nat) (s s' u : State), s.agenda = s'.agenda →
    { s.engine with traceEn := false } = { s'.engine with traceEn := false } →
    Sys2Proof.core.run k s = .next u →
    ∃ u' : State, Sys2Proof.core.run k s' = .next u' ∧ u.agenda = u'.agenda ∧
      { u.engine with traceEn := false } = { u'.engine with traceEn := false }

/-! ## The register window (20_memory.md) -/

/-- R44: the value of every read, by offset and width. -/
def Obligations.ReadValues : Prop :=
  ∀ e : Engine,
    (∀ off n, n ≠ 4 ∨ off.toNat % 4 ≠ 0 → memRead e off n = 0) ∧
    memRead e 0x000#10 4 = (if e.traceEn = true then 1 else 0) ∧
    memRead e 0x004#10 4 = (if e.busy = true then 1 else 0) + (if e.isOpen = true then 2 else 0) ∧
    memRead e 0x008#10 4 = BitVec.ofNat 32 e.err.toNat ∧
    memRead e 0x00C#10 4 = 0 ∧
    (e.t ≤ 64 → memRead e 0x010#10 4 = BitVec.ofNat 32 e.t) ∧
    memRead e 0x014#10 4 = e.blkcnt ∧
    (∀ i (h : i < 8), memRead e (BitVec.ofNat 10 (0x020 + 4 * i)) 4 = e.cv[i]) ∧
    memRead e 0x040#10 4 = e.work.a ∧ memRead e 0x044#10 4 = e.work.b ∧ memRead e 0x048#10 4 = e.work.c ∧
    memRead e 0x04C#10 4 = e.work.d ∧ memRead e 0x050#10 4 = e.work.e ∧ memRead e 0x054#10 4 = e.work.f ∧
    memRead e 0x058#10 4 = e.work.g ∧ memRead e 0x05C#10 4 = e.work.h ∧
    (∀ i (h : i < 16), memRead e (BitVec.ofNat 10 (0x080 + 4 * i)) 4 = e.m[i]) ∧
    memRead e 0x0C0#10 4 = e.opx ∧ memRead e 0x0C4#10 4 = e.opy ∧ memRead e 0x0C8#10 4 = e.opz ∧
    memRead e 0x0CC#10 4 = e.pres ∧
    (∀ i (h : i < 64), memRead e (BitVec.ofNat 10 (0x100 + 4 * i)) 4 = e.w[i]) ∧
    (∀ i (h : i < 64), memRead e (BitVec.ofNat 10 (0x200 + 4 * i)) 4 = roundConstants[i]) ∧
    (∀ i (h : i < 8), memRead e (BitVec.ofNat 10 (0x300 + 4 * i)) 4 = initialValue[i]) ∧
    (∀ off n, off.toNat = 0x018 ∨ off.toNat = 0x01C ∨ (0x060 ≤ off.toNat ∧ off.toNat < 0x080) ∨
      (0x0D0 ≤ off.toNat ∧ off.toNat < 0x100) ∨ 0x320 ≤ off.toNat → memRead e off n = 0)

/-- R44, R52, R53: a host read hands the host one word, in any state, and changes no engine state. The list the word
joins is the model's own (log entry 2). -/
def Obligations.ReadChangesNoEngineState : Prop :=
  ∀ (s : State) (off : BitVec 10) (n : Nat) (rest : List Event), s.agenda = .read off n :: rest →
    step s = .next { s with agenda := rest, reads := s.reads ++ [⟨off, n, memRead s.engine off n⟩] }

/-- R45, R26, R47 to R50, R23, R29: the effect of every write that passes its checks, and nothing else changes. -/
def Obligations.WriteEffects : Prop :=
  ∀ (s : State) (v : Word) (rest : List Event), s.engine.busy = false →
    let after (e : Engine) : Host.Outcome State Fault Refusal := .next { s with agenda := rest, engine := e }
    (s.agenda = .write 0x000#10 4 v :: rest → step s = after { s.engine with traceEn := v.getLsbD 0 }) ∧
    (s.agenda = .write 0x008#10 4 v :: rest →
      step s = after { s.engine with err := s.engine.err &&& ~~~(v.extractLsb' 0 5) }) ∧
    (s.agenda = .write 0x014#10 4 v :: rest → step s = after { s.engine with blkcnt := v }) ∧
    (∀ i, i < 8 → s.engine.isOpen = false → s.agenda = .write (BitVec.ofNat 10 (0x020 + 4 * i)) 4 v :: rest →
      step s = after { s.engine with cv := s.engine.cv.setIfInBounds i v }) ∧
    (∀ i, i < 16 → s.agenda = .write (BitVec.ofNat 10 (0x080 + 4 * i)) 4 v :: rest →
      step s = after { s.engine with m := s.engine.m.setIfInBounds i v }) ∧
    (s.agenda = .write 0x0C0#10 4 v :: rest → step s = after { s.engine with opx := v }) ∧
    (s.agenda = .write 0x0C4#10 4 v :: rest → step s = after { s.engine with opy := v }) ∧
    (s.agenda = .write 0x0C8#10 4 v :: rest → step s = after { s.engine with opz := v })

/-- R45, R47, R48, R49, R29: a written register reads back as written, and every other register of the window reads as
before. -/
def Obligations.WriteTouchesOneRegister : Prop :=
  ∀ (s u : State) (r : Reg) (v : Word),
    ((∃ i, r = .cv i) ∧ s.engine.isOpen = false) ∨ (∃ i, r = .m i) ∨ r = .blkcnt ∨ r = .opx ∨ r = .opy ∨ r = .opz →
    HostWrites r v s → step s = .next u →
    memRead u.engine (offsetOf r) 4 = v ∧
    ∀ r', r' ≠ r → memRead u.engine (offsetOf r') 4 = memRead s.engine (offsetOf r') 4

/-- R42: every named register has its own aligned offset, and every aligned offset is one register or reserved. -/
def Obligations.RegisterMapIsOneToOne : Prop :=
  (∀ r : Reg, (offsetOf r).toNat % 4 = 0 ∧ regAt (offsetOf r) = some r) ∧
  (∀ (off : BitVec 10) (r : Reg), off.toNat % 4 = 0 → regAt off = some r → offsetOf r = off) ∧
  (∀ off : BitVec 10, off.toNat % 4 = 0 →
    (regAt off = none ↔ off.toNat = 0x018 ∨ off.toNat = 0x01C ∨ (0x060 ≤ off.toNat ∧ off.toNat < 0x080) ∨
      (0x0D0 ≤ off.toNat ∧ off.toNat < 0x100) ∨ 0x320 ≤ off.toNat))

/-- R41, R42: whatever BASE is, it is a multiple of 0x400, the window's 0x400 addresses reach the engine at their
offsets, and no other address does. -/
def Obligations.WindowDecodesItsAddresses : Prop :=
  Config.base % 0x400 = 0 ∧
  (∀ off : BitVec 10, windowOffset (Config.base + off.toNat) = some off) ∧
  (∀ addr, addr < Config.base ∨ Config.base + 0x400 ≤ addr → windowOffset addr = none)

/-! ## Who writes what: rules over every step -/

/-- R19, R25, R114: T advances by exactly one at a round, is set to 0 by BEGIN's micro-step and by reset, and is
otherwise unchanged. -/
def Obligations.RoundCounterAdvancesByOne : Prop :=
  ∀ s u : State, step s = .next u →
    u.engine.t = s.engine.t ∨ (Performs .round s ∧ s.engine.t < 64 ∧ u.engine.t = s.engine.t + 1) ∨
    ((Performs .begin s ∨ Resets s) ∧ u.engine.t = 0)

/-- R30: only the primitive commands write PRES (and reset clears it). -/
def Obligations.OnlyPrimitivesWritePres : Prop :=
  ∀ s u : State, step s = .next u → u.engine.pres ≠ s.engine.pres →
    (Resets s ∧ u.engine.pres = 0) ∨ ∃ m, isPrimitiveStep m = true ∧ Performs m s

/-- R15: CV is written by INIT's and FINISH's micro-steps (COMPRESS ends with FINISH's), by host writes while OPEN = 0
and BUSY = 0, and by reset, and by nothing else. -/
def Obligations.ChainingValueWriters : Prop :=
  ∀ s u : State, step s = .next u → u.engine.cv ≠ s.engine.cv →
    (Resets s ∧ u.engine.cv = initialValue) ∨ (Performs .init s ∧ u.engine.cv = initialValue) ∨
    (Performs .finish s ∧ u.engine.cv = fold s.engine.cv s.engine.work) ∨
    ∃ i v, HostWrites (.cv i) v s ∧ s.engine.isOpen = false ∧ u.engine.cv = s.engine.cv.setIfInBounds i v

/-- R18, R29, R50: no command writes M, OPX, OPY, OPZ or TRACE_EN; only the host's own write with BUSY = 0 does, and
reset. -/
def Obligations.HostRegistersChangeByHostOnly : Prop :=
  ∀ s u : State, step s = .next u → ¬ Resets s →
    (u.engine.m ≠ s.engine.m → ∃ i v, HostWrites (.m i) v s ∧ u.engine.m = s.engine.m.setIfInBounds i v) ∧
    (u.engine.opx ≠ s.engine.opx → HostWrites .opx u.engine.opx s) ∧
    (u.engine.opy ≠ s.engine.opy → HostWrites .opy u.engine.opy s) ∧
    (u.engine.opz ≠ s.engine.opz → HostWrites .opz u.engine.opz s) ∧
    (u.engine.traceEn ≠ s.engine.traceEn → ∃ v, HostWrites .ctrl v s ∧ u.engine.traceEn = v.getLsbD 0)

/-- R22: BLKCNT is cleared by INIT, incremented mod 2^32 by FINISH, written by the host with BUSY = 0, cleared by reset,
and otherwise unchanged. -/
def Obligations.BlockCounterWriters : Prop :=
  ∀ s u : State, step s = .next u → u.engine.blkcnt ≠ s.engine.blkcnt →
    ((Resets s ∨ Performs .init s) ∧ u.engine.blkcnt = 0) ∨
    (Performs .finish s ∧ u.engine.blkcnt = s.engine.blkcnt + 1) ∨ HostWrites .blkcnt u.engine.blkcnt s

/-- R16: A..H are written by BEGIN's micro-step (from CV) and by rounds, cleared by reset, and by nothing else: the host
cannot write them, and FINISH and ABORT keep them. -/
def Obligations.WorkingRegisterWriters : Prop :=
  ∀ s u : State, step s = .next u → u.engine.work ≠ s.engine.work →
    (Resets s ∧ u.engine.work = ⟨0, 0, 0, 0, 0, 0, 0, 0⟩) ∨
    (Performs .begin s ∧ u.engine.work.toVector = s.engine.cv) ∨
    (Performs .round s ∧ u.engine.work =
      roundFn s.engine.work s.engine.t (scheduleWord s.engine.m s.engine.w s.engine.t))

/-- R20: OPEN becomes 1 by BEGIN's micro-step only, and 0 by FINISH's, ABORT's or reset only. -/
def Obligations.OpenBitWriters : Prop :=
  ∀ s u : State, step s = .next u →
    (s.engine.isOpen = false → u.engine.isOpen = true → Performs .begin s) ∧
    (s.engine.isOpen = true → u.engine.isOpen = false → Performs .finish s ∨ Performs .abort s ∨ Resets s)

/-- R21, R31, R56: BUSY rises only in the host step whose CMD write is accepted, with PEND the command and its
micro-steps, and falls only in the engine step that performs the last micro-step, or by reset. -/
def Obligations.BusyBitWriters : Prop :=
  ∀ s u : State, step s = .next u →
    (s.engine.busy = false → u.engine.busy = true →
      ∃ v i, HostWrites .cmd v s ∧ decode v = .ok i ∧ u.engine.pend = some ⟨i, microSteps i⟩) ∧
    (s.engine.busy = true → u.engine.busy = false →
      (Resets s ∨ (EngineMoves s ∧ ∃ op m, s.engine.pend = some ⟨op, [m]⟩)) ∧ u.engine.pend = none)

/-! ## The invariant, progress, reset -/

/-- R33, R31: every step keeps the engine's invariant, from every state that has it. -/
def Obligations.StepKeepsInvariant : Prop :=
  ∀ s u : State, SystemInv s → step s = .next u → SystemInv u

/-- R34, R33: the reset state has the invariant. -/
def Obligations.ResetHasInvariant : Prop := SystemInv State.reset

/-- R142, R138: from a state with the invariant every step answers a next state: no micro-step raises, and a rejected
access stops nothing. -/
def Obligations.InvariantNeverStops : Prop := ∀ s : State, SystemInv s → ∃ u, step s = .next u

/-- R161, R160: with no host step left, a state with the invariant is idle after at most 66 steps. -/
def Obligations.AcceptedCommandEnds : Prop :=
  ∀ s : State, SystemInv s → s.agenda = [] →
    ∃ (k : Nat) (u : State), k ≤ 66 ∧ Sys2Proof.core.run k s = .next u ∧ Idle u.engine

/-- R151, R34: the hardware reset, in any state, sets every piece of the engine to its reset value and discards PEND,
emits no record and leaves emitted records with the sink; and the machine right after reset has exactly that engine. That
the host's reads and the rest of the agenda survive it is the model's choice (log entries 1 and 2). -/
def Obligations.ResetSetsEveryRegister : Prop :=
  let e : Engine := {
    cv := #v[0x6A09E667, 0xBB67AE85, 0x3C6EF372, 0xA54FF53A, 0x510E527F, 0x9B05688C, 0x1F83D9AB, 0x5BE0CD19]
    work := ⟨0, 0, 0, 0, 0, 0, 0, 0⟩, w := Vector.replicate 64 0, m := Vector.replicate 16 0
    t := 0, isOpen := false, busy := false, traceEn := false, blkcnt := 0, err := 0
    opx := 0, opy := 0, opz := 0, pres := 0, pend := none }
  State.reset.engine = e ∧
  ∀ (s : State) (rest : List Event), s.agenda = .reset :: rest →
    step s = .next { s with agenda := rest, engine := e }

/-! ## The host's side (43_host_protocol.md) -/

/-- R127, R128: a padded message is the message, the byte 80, fewer than 64 zero bytes and the 64-bit big-endian bit
length; its length is a multiple of 64 with `floor((L + 8) / 64) + 1` blocks. -/
def Obligations.PaddedLengthContract : Prop :=
  ∀ msg p : List Byte, pad msg = some p →
    p.length % 64 = 0 ∧ p.length / 64 = (msg.length + 8) / 64 + 1 ∧
    (∃ z, z < 64 ∧ p.length = msg.length + 1 + z + 8 ∧
      p.take (p.length - 8) = msg ++ 0x80#8 :: List.replicate z 0) ∧
    (p.drop (p.length - 8)).foldl (fun acc b => 256 * acc + b.toNat) 0 = 8 * msg.length

/-- R126, R130: the digest's bytes are the words big-endian: packing 32 bytes into 8 words and taking the digest gives
the bytes back. -/
def Obligations.DigestUndoesPacking : Prop :=
  ∀ bytes : List Byte, bytes.length = 32 →
    digest (Vector.ofFn (fun i : Fin 8 => packWord (bytes.getD (4 * i.val) 0) (bytes.getD (4 * i.val + 1) 0)
      (bytes.getD (4 * i.val + 2) 0) (bytes.getD (4 * i.val + 3) 0))) = bytes

/-- R133, R148: once a run has ended the engine is idle, nothing moves any more, and at every later step the run has
ended with the same result. That the host stops is an empty agenda, that the idle step answers the same state, and what
the host has read are the model's choices (log entries 1 and 2). R133 asks for a stop after a read of STATUS that returns
BUSY = 0; that no command was accepted since that read, which `RunEnded` asks for too, is DEDUCED (log entry 12). -/
def Obligations.EndedRunStays : Prop :=
  ∀ (k : Nat) (s u : State), SystemInv s → RunEnded k s u →
    Idle u.engine ∧ step u = .next u ∧
    ∀ j, ∃ v, RunEnded (k + j) s v ∧ runResult s v = runResult s u

/-- R129, R113, R133: `compress_all` as a host program on the engine. From a state with the invariant whose pending
command, if any, ends with no block open, under every schedule: the program is never stopped; it can be brought to its
end from wherever the schedule left it; and where it has stopped, its run has ended, its result is `compressAll msg`, CV
holds the chain over the message's blocks, BLKCNT their number, no block is open, the engine is idle, and ERR is as it
was, so no access was rejected. Host programs and schedules are the model's own, and that an ended run accepted no
command after its last read of STATUS is DEDUCED from R133 (log entry 12). -/
def Obligations.CompressAllRunsOnTheEngine : Prop :=
  ∀ (msg p : List Byte) (prog : HostProgram (List Byte)) (s : State),
    pad msg = some p → compressAllProgram msg = some prog → SystemInv s →
    (∃ k u, engineTurns k s = .next u ∧ Idle u.engine ∧ u.engine.isOpen = false) →
    ∀ schedule : List Agent, ∃ r, (HostRun.start prog s).moves schedule = .next r ∧
      (∃ more q d, r.moves more = .next q ∧ q.program = .done d) ∧
      ∀ d, r.program = .done d →
        compressAll msg = some d ∧ r.ended = true ∧
        r.system.engine.cv = compressBlocks initialValue (messageBlocks p) ∧
        r.system.engine.blkcnt = BitVec.ofNat 32 (p.length / 64) ∧
        r.system.engine.isOpen = false ∧ Idle r.system.engine ∧ r.system.engine.err = s.engine.err
end

