-- ==== Sys2Proof/Laws/State.lean ====
section
/-! SUPPORT. What each named update of the state does to each field. -/

namespace Sys2Proof.Machine

@[simp] theorem withEngine_engine (s : State) (e : Engine) : (s.withEngine e).engine = e := rfl
@[simp] theorem withEngine_agenda (s : State) (e : Engine) : (s.withEngine e).agenda = s.agenda := rfl
@[simp] theorem withEngine_reads (s : State) (e : Engine) : (s.withEngine e).reads = s.reads := rfl
@[simp] theorem withEngine_trace (s : State) (e : Engine) : (s.withEngine e).trace = s.trace := rfl

@[simp] theorem withAgenda_engine (s : State) (l : List Event) : (s.withAgenda l).engine = s.engine := rfl
@[simp] theorem withAgenda_agenda (s : State) (l : List Event) : (s.withAgenda l).agenda = l := rfl
@[simp] theorem withAgenda_reads (s : State) (l : List Event) : (s.withAgenda l).reads = s.reads := rfl
@[simp] theorem withAgenda_trace (s : State) (l : List Event) : (s.withAgenda l).trace = s.trace := rfl

@[simp] theorem pushRead_engine (s : State) (r : HostRead) : (s.pushRead r).engine = s.engine := rfl
@[simp] theorem pushRead_agenda (s : State) (r : HostRead) : (s.pushRead r).agenda = s.agenda := rfl
@[simp] theorem pushRead_reads (s : State) (r : HostRead) : (s.pushRead r).reads = s.reads ++ [r] := rfl
@[simp] theorem pushRead_trace (s : State) (r : HostRead) : (s.pushRead r).trace = s.trace := rfl

@[simp] theorem pushTrace_engine (s : State) (r : TraceRecord) : (s.pushTrace r).engine = s.engine := rfl
@[simp] theorem pushTrace_agenda (s : State) (r : TraceRecord) : (s.pushTrace r).agenda = s.agenda := rfl
@[simp] theorem pushTrace_reads (s : State) (r : TraceRecord) : (s.pushTrace r).reads = s.reads := rfl
@[simp] theorem pushTrace_trace (s : State) (r : TraceRecord) : (s.pushTrace r).trace = s.trace ++ [r] := rfl

/-- Two updates of the engine part are the last one. -/
@[simp] theorem withEngine_withEngine (s : State) (e f : Engine) : (s.withEngine e).withEngine f = s.withEngine f := rfl

/-- Putting a state's own engine back changes nothing. -/
@[simp] theorem withEngine_self (s : State) : s.withEngine s.engine = s := rfl

/-- A state is its four parts. -/
theorem state_ext {s u : State} (he : s.engine = u.engine) (ha : s.agenda = u.agenda) (hr : s.reads = u.reads)
    (ht : s.trace = u.trace) : s = u := by
  cases s; cases u; simp_all

@[simp] theorem raise_engine (c : ErrorCode) (s : State) :
    (raise c s).engine = { s.engine with err := setError c s.engine.err } := rfl
@[simp] theorem raise_agenda (c : ErrorCode) (s : State) : (raise c s).agenda = s.agenda := rfl
@[simp] theorem raise_reads (c : ErrorCode) (s : State) : (raise c s).reads = s.reads := rfl
@[simp] theorem raise_trace (c : ErrorCode) (s : State) : (raise c s).trace = s.trace := rfl

@[simp] theorem accept_engine (op : Instr) (l : List MicroStep) (s : State) :
    (accept op l s).engine = { s.engine with pend := some ⟨op, l⟩, busy := true } := rfl
@[simp] theorem accept_agenda (op : Instr) (l : List MicroStep) (s : State) : (accept op l s).agenda = s.agenda := rfl
@[simp] theorem accept_reads (op : Instr) (l : List MicroStep) (s : State) : (accept op l s).reads = s.reads := rfl
@[simp] theorem accept_trace (op : Instr) (l : List MicroStep) (s : State) : (accept op l s).trace = s.trace := rfl

@[simp] theorem writePres_engine (x : Word) (s : State) : (writePres x s).engine = { s.engine with pres := x } := rfl
@[simp] theorem writePres_agenda (x : Word) (s : State) : (writePres x s).agenda = s.agenda := rfl
@[simp] theorem writePres_reads (x : Word) (s : State) : (writePres x s).reads = s.reads := rfl
@[simp] theorem writePres_trace (x : Word) (s : State) : (writePres x s).trace = s.trace := rfl

@[simp] theorem emit_engine (r : TraceRecord) (s : State) : (emit r s).engine = s.engine := by
  unfold emit; split <;> rfl
@[simp] theorem emit_agenda (r : TraceRecord) (s : State) : (emit r s).agenda = s.agenda := by
  unfold emit; split <;> rfl
@[simp] theorem emit_reads (r : TraceRecord) (s : State) : (emit r s).reads = s.reads := by
  unfold emit; split <;> rfl
/-- R111: a record is emitted exactly when TRACE_EN = 1. -/
theorem emit_trace (r : TraceRecord) (s : State) :
    (emit r s).trace = if s.engine.traceEn then s.trace ++ [r] else s.trace := by
  unfold emit; split <;> rfl

/-- R56: what the end of a micro-step does to the engine. -/
theorem retire_engine (op : Instr) (l : List MicroStep) (s : State) :
    (retire op l s).engine =
      { s.engine with
        pend := if l = [] then none else some ⟨op, l⟩
        busy := if l = [] then false else s.engine.busy } := by
  cases l <;> rfl
@[simp] theorem retire_agenda (op : Instr) (l : List MicroStep) (s : State) : (retire op l s).agenda = s.agenda := by
  cases l <;> rfl
@[simp] theorem retire_reads (op : Instr) (l : List MicroStep) (s : State) : (retire op l s).reads = s.reads := by
  cases l <;> rfl
@[simp] theorem retire_trace (op : Instr) (l : List MicroStep) (s : State) : (retire op l s).trace = s.trace := by
  cases l <;> rfl

end Sys2Proof.Machine
end

