-- ==== Sys2Proof/Laws/Ops.lean ====
section
/-! SUPPORT. What the shared operations do: register files, acceptance, the round step. -/

namespace Sys2Proof.Machine

/-- Inside the file the look-up is the element. -/
theorem wordAt_of_lt {n : Nat} (v : Vector Word n) {i : Nat} (h : i < n) : wordAt v i = v[i] := by
  simp [wordAt, h]

/-- Two files are equal when every look-up is. -/
theorem vector_ext_wordAt {n : Nat} {v u : Vector Word n} (h : ∀ i, i < n → wordAt v i = wordAt u i) : v = u := by
  apply Vector.ext
  intro i hi
  simpa [wordAt, hi] using h i hi

/-- Read after write in a register file. -/
theorem wordAt_set {n : Nat} (v : Vector Word n) (i j : Nat) (x : Word) :
    wordAt (v.setIfInBounds i x) j = if i = j ∧ j < n then x else wordAt v j := by
  unfold wordAt
  by_cases hj : j < n
  · simp [hj, Vector.getElem_setIfInBounds]
  · simp [hj]

@[simp] theorem wordAt_replicate_zero (n i : Nat) : wordAt (Vector.replicate n (0 : Word)) i = 0 := by
  unfold wordAt; split <;> simp

/-- The three outcomes of acceptance (R139): BUSY, the command's own error, accepted. -/
theorem issue_cases (op : Instr) (l : List MicroStep) (c : Option ErrorCode) (s : State) :
    (s.engine.busy = true ∧ issue op l c s = raise .busy s) ∨
    (s.engine.busy = false ∧ ∃ e, c = some e ∧ issue op l c s = raise e s) ∨
    (s.engine.busy = false ∧ c = none ∧ issue op l c s = accept op l s) := by
  unfold issue
  cases s.engine.busy <;> cases c <;> simp

/-- What a command's acceptance asks of the engine, beyond BUSY (R139). -/
def acceptanceCheck (e : Engine) : Instr → Option ErrorCode
  | .init | .begin | .compress => needsClosed e
  | .round n => needsRounds n e
  | .finish => needsComplete e
  | .nop | .abort | .rotr _ | .ch | .maj | .bsig0 | .bsig1 | .ssig0 | .ssig1 => none

/-- Every command's CMD write step is an acceptance with its own check and its own micro-steps (R139). -/
theorem exec_eq_issue (i : Instr) (s : State) :
    exec i s = .next (issue i (Safety.microSteps i) (acceptanceCheck s.engine i) s) := by
  cases i <;> rfl

/-- No command's CMD write step stops the machine (R138, R139): rejection is a next state too. -/
theorem exec_cases (i : Instr) (s : State) :
    (∃ c, exec i s = .next (raise c s)) ∨
    (s.engine.busy = false ∧ acceptanceCheck s.engine i = none ∧
      exec i s = .next (accept i (Safety.microSteps i) s)) := by
  rw [exec_eq_issue]
  obtain ⟨_, h⟩ | ⟨_, e, _, h⟩ | ⟨hb, hc, h⟩ :=
    issue_cases i (Safety.microSteps i) (acceptanceCheck s.engine i) s <;> rw [h]
  · exact .inl ⟨_, rfl⟩
  · exact .inl ⟨_, rfl⟩
  · exact .inr ⟨hb, hc, rfl⟩

@[simp] theorem roundStep_engine (s : State) : (roundStep s).engine = roundStepEngine s.engine := by
  simp [roundStep]
@[simp] theorem roundStep_agenda (s : State) : (roundStep s).agenda = s.agenda := by simp [roundStep]
@[simp] theorem roundStep_reads (s : State) : (roundStep s).reads = s.reads := by simp [roundStep]
/-- R111: the record of a round. -/
theorem roundStep_trace (s : State) :
    (roundStep s).trace = if s.engine.traceEn then
      s.trace ++ [⟨s.engine.blkcnt, s.engine.t, (roundStepEngine s.engine).work⟩] else s.trace := by
  rw [roundStep, emit_trace]; rfl

end Sys2Proof.Machine
end

