-- ==== Sys2Proof/Laws/Engine.lean ====
section
/-! SUPPORT. What one micro-step and one engine turn can do. -/

namespace Sys2Proof.Machine

open Sys2Proof.Safety

/-- What each micro-step makes of the engine (R105 to R112, R88 to R94): everything it can do. -/
theorem microStep_next {m : MicroStep} {s u : State} (h : microStep m s = .next u) :
    u.agenda = s.agenda ∧ u.reads = s.reads ∧
    ((m = .nop ∧ u = s) ∨
     (m = .init ∧ u = s.withEngine { s.engine with cv := initialValue, blkcnt := 0 }) ∨
     (m = .begin ∧ u = s.withEngine { s.engine with
        work := Working.ofVector s.engine.cv, w := Vector.replicate 64 0, t := 0, isOpen := true }) ∨
     (m = .round ∧ s.engine.t < 64 ∧ u = roundStep s) ∨
     (m = .finish ∧ u = s.withEngine { s.engine with
        cv := fold s.engine.cv s.engine.work, blkcnt := s.engine.blkcnt + 1, isOpen := false }) ∨
     (m = .abort ∧ u = s.withEngine { s.engine with isOpen := false }) ∨
     (isPrimitiveStep m = true ∧ ∃ x, u = writePres x s)) := by
  cases m <;> simp only [microStep, microRound] at h
  case round =>
    split at h
    · rename_i ht
      cases h
      simp [ht]
    · cases h
  all_goals
    cases h
    refine ⟨rfl, rfl, ?_⟩
    first
      | exact .inr (.inr (.inr (.inr (.inr (.inr ⟨rfl, _, rfl⟩)))))
      | simp [microNop, microInit, microBegin, microFinish, microAbort]

/-- The three outcomes of an engine turn that answers a next state (R56). -/
theorem engineTurn_next {s u : State} (h : engineTurn s = .next u) :
    (s.engine.pend = none ∧ u = s) ∨
    ∃ op m later v, s.engine.pend = some ⟨op, m :: later⟩ ∧ microStep m s = .next v ∧ u = retire op later v := by
  unfold engineTurn at h
  split at h
  · rename_i hp
    cases h
    exact .inl ⟨hp, rfl⟩
  · cases h
  · rename_i op m later hp
    split at h
    · rename_i v hv
      cases h
      exact .inr ⟨op, m, later, v, hp, hv, rfl⟩
    · cases h
    · cases h

/-- An engine turn with `m` at the head of PEND. -/
theorem engineTurn_of_pend {s v : State} {op : Instr} {m : MicroStep} {later : List MicroStep}
    (hp : s.engine.pend = some ⟨op, m :: later⟩) (hm : microStep m s = .next v) :
    engineTurn s = .next (retire op later v) := by
  simp [engineTurn, hp, hm]

/-- A micro-step reads and writes nothing but the engine and the sink: what it makes of the engine is the engine's own
doing, whatever the other agents hold (R111, R131). -/
theorem microStep_engine {m : MicroStep} {s u : State} (h : microStep m s = .next u) (s' : State)
    (he : s'.engine = s.engine) : ∃ u', microStep m s' = .next u' ∧ u'.engine = u.engine := by
  cases m <;> simp only [microStep, microRound] at h ⊢
  case round =>
    split at h
    · rename_i ht
      cases h
      exact ⟨_, if_pos (by rw [he]; exact ht), by rw [roundStep_engine, roundStep_engine, he]⟩
    · cases h
  all_goals
    cases h
    exact ⟨_, rfl, by simp [microNop, microInit, microBegin, microFinish, microAbort, microRotr, microCh, microMaj,
      microBsig0, microBsig1, microSsig0, microSsig1, he]⟩

/-- The same of an engine turn. -/
theorem engineTurn_engine {s u : State} (h : engineTurn s = .next u) (s' : State) (he : s'.engine = s.engine) :
    ∃ u', engineTurn s' = .next u' ∧ u'.engine = u.engine := by
  obtain ⟨hp, rfl⟩ | ⟨op, m, later, v, hp, hv, rfl⟩ := engineTurn_next h
  · exact ⟨s', by simp [engineTurn, he, hp], he⟩
  · obtain ⟨v', hv', e⟩ := microStep_engine hv s' he
    exact ⟨_, engineTurn_of_pend (by rw [he]; exact hp) hv', by rw [retire_engine, retire_engine, e]⟩

@[simp] theorem engineTurns_zero (s : State) : engineTurns 0 s = .next s := rfl

/-- `k + 1` turns from the first one's state. -/
theorem engineTurns_succ {s u : State} (k : Nat) (h : engineTurn s = .next u) :
    engineTurns (k + 1) s = engineTurns k u := by
  simp [engineTurns, h]

/-- Turns add up. -/
theorem engineTurns_add {s u : State} (j k : Nat) (h : engineTurns j s = .next u) :
    engineTurns (j + k) s = engineTurns k u := by
  induction j generalizing s with
  | zero => simp only [engineTurns_zero] at h; cases h; simp
  | succ j ih =>
    rw [Nat.succ_add]
    simp only [engineTurns] at h ⊢
    split at h
    · exact ih h
    · cases h
    · cases h

end Sys2Proof.Machine
end

