-- ==== Sys2Proof/Laws/Window.lean ====
section
/-! SUPPORT. What a host write can do. -/

namespace Sys2Proof.Machine

/-- What a write to a register can do once shape and BUSY are checked (R45): one ERR bit, one register, or an accepted
command. -/
theorem writeReg_next {r : Reg} {v : Word} {s u : State} (h : writeReg r v s = .next u) :
    (∃ c, u = raise c s) ∨
    (r = .ctrl ∧ u = s.withEngine { s.engine with traceEn := v.getLsbD 0 }) ∨
    (r = .err ∧ u = s.withEngine { s.engine with err := clearErrors v s.engine.err }) ∨
    (r = .cmd ∧ ∃ i, decode v = .ok i ∧ s.engine.busy = false ∧ acceptanceCheck s.engine i = none ∧
      u = accept i (Safety.microSteps i) s) ∨
    (r = .blkcnt ∧ u = s.withEngine { s.engine with blkcnt := v }) ∨
    (∃ i, r = .cv i ∧ s.engine.isOpen = false ∧
      u = s.withEngine { s.engine with cv := s.engine.cv.setIfInBounds i v }) ∨
    (∃ i, r = .m i ∧ u = s.withEngine { s.engine with m := s.engine.m.setIfInBounds i v }) ∨
    (r = .opx ∧ u = s.withEngine { s.engine with opx := v }) ∨
    (r = .opy ∧ u = s.withEngine { s.engine with opy := v }) ∨
    (r = .opz ∧ u = s.withEngine { s.engine with opz := v }) := by
  cases r <;> simp only [writeReg] at h
  case cmd =>
    unfold acceptWord at h
    split at h
    · cases h; exact .inl ⟨_, rfl⟩
    · rename_i i hd
      obtain ⟨c, hc⟩ | ⟨hb, hk, hc⟩ := exec_cases i s <;> rw [hc] at h <;> cases h
      · exact .inl ⟨_, rfl⟩
      · exact .inr (.inr (.inr (.inl ⟨rfl, i, hd, hb, hk, rfl⟩)))
  case cv i =>
    split at h <;> cases h
    · exact .inl ⟨_, rfl⟩
    · rename_i ho
      refine .inr (.inr (.inr (.inr (.inr (.inl ⟨i, rfl, by simpa using ho, rfl⟩)))))
  all_goals
    cases h
    first
      | exact .inl ⟨_, rfl⟩
      | simp

/-- What a host write can do (R45, R140). -/
theorem memWrite_next {off : BitVec 10} {n : Nat} {v : Word} {s u : State} (h : memWrite off n v s = .next u) :
    (∃ c, u = raise c s) ∨
    (legalShape off n = true ∧ s.engine.busy = false ∧ ∃ r, regAt off = some r ∧ writeReg r v s = .next u) := by
  unfold memWrite at h
  split at h
  · cases h; exact .inl ⟨_, rfl⟩
  · rename_i hs
    split at h
    · cases h; exact .inl ⟨_, rfl⟩
    · rename_i hb
      split at h
      · rename_i r hr
        exact .inr ⟨by simpa using hs, by simpa using hb, r, hr, h⟩
      · cases h; exact .inl ⟨_, rfl⟩

/-- A host write never stops the machine (R138: a rejection is a next state). -/
theorem memWrite_answers (off : BitVec 10) (n : Nat) (v : Word) (s : State) : ∃ u, memWrite off n v s = .next u := by
  unfold memWrite
  split
  · exact ⟨_, rfl⟩
  · split
    · exact ⟨_, rfl⟩
    · split
      · rename_i r _
        cases r <;> simp only [writeReg]
        case cmd =>
          unfold acceptWord
          split
          · exact ⟨_, rfl⟩
          · rw [exec_eq_issue]; exact ⟨_, rfl⟩
        case cv => split <;> exact ⟨_, rfl⟩
        all_goals exact ⟨_, rfl⟩
      · exact ⟨_, rfl⟩

end Sys2Proof.Machine
end

