-- ==== Sys2Proof/Laws/Step.lean ====
section
/-! SUPPORT. What one step of the system can do. -/

namespace Sys2Proof.Machine

theorem step_nil {s : State} (h : s.agenda = []) : step s = engineTurn s := by
  simp [step, stepAgenda, h]

theorem step_cons {s : State} {ev : Event} {rest : List Event} (h : s.agenda = ev :: rest) :
    step s = perform ev (s.withAgenda rest) := by
  simp [step, stepAgenda, h]

/-- The four agents' steps (R56, R151), with the agenda that the step leaves. -/
theorem step_next {s u : State} (h : step s = .next u) :
    (∃ rest, engineTurn (s.withAgenda rest) = .next u ∧
      ((s.agenda = [] ∧ rest = []) ∨ s.agenda = .engine :: rest)) ∨
    (∃ off n rest, s.agenda = .read off n :: rest ∧ u = hostRead off n (s.withAgenda rest)) ∨
    (∃ off n v rest, s.agenda = .write off n v :: rest ∧ memWrite off n v (s.withAgenda rest) = .next u) ∨
    (∃ rest, s.agenda = .reset :: rest ∧ u = resetEngine (s.withAgenda rest)) := by
  cases ha : s.agenda with
  | nil =>
    rw [step_nil ha] at h
    refine .inl ⟨[], ?_, .inl ⟨rfl, rfl⟩⟩
    rw [← ha]
    exact h
  | cons ev rest =>
    rw [step_cons ha] at h
    cases ev <;> simp only [perform] at h
    case read off n => cases h; exact .inr (.inl ⟨off, n, rest, rfl, rfl⟩)
    case write off n v => exact .inr (.inr (.inl ⟨off, n, v, rest, rfl, h⟩))
    case engine => exact .inl ⟨rest, h, .inr rfl⟩
    case reset => cases h; exact .inr (.inr (.inr ⟨rest, rfl, rfl⟩))

end Sys2Proof.Machine
end

