-- ==== Sys2Proof/Laws/HostProgram.lean ====
section
/-! SUPPORT. What a host program's run can do. -/

namespace Sys2Proof.Machine

/-- R44: a host read is a step, whatever the state. -/
theorem step_read (s : State) (r : Reg) :
    step (s.withAgenda [hostRd r]) = .next (hostRead (offsetOf r) 4 (s.withAgenda [])) := by
  rw [step_cons (rest := []) rfl]; rfl

/-- R56: a step that the agenda gives to the engine is the engine's turn. -/
theorem step_engine (s : State) : step (s.withAgenda [.engine]) = engineTurn (s.withAgenda []) := by
  rw [step_cons (rest := []) rfl]; rfl

@[simp] theorem access_done {α : Type} (a : α) : (HostProgram.done a).access = none := rfl
@[simp] theorem access_wr {α : Type} (r : Reg) (v : Word) (p : HostProgram α) :
    (HostProgram.wr r v p).access = some (hostWr r v) := rfl
@[simp] theorem access_rd {α : Type} (r : Reg) (k : Word → HostProgram α) :
    (HostProgram.rd r k).access = some (hostRd r) := rfl
@[simp] theorem access_wait {α : Type} (p : HostProgram α) : (HostProgram.wait p).access = some (hostRd .status) := rfl

/-- Everything one step of a host run can do: one step of the machine, with the settled bit moved on by R133. -/
theorem take_next {α : Type} {ev : Event} {p : HostProgram α} {r q : HostRun α} (h : r.take ev p = .next q) :
    ∃ u, step (r.system.withAgenda [ev]) = .next u ∧ q = ⟨p, u, settledAfter ev u r.settled⟩ := by
  unfold HostRun.take at h
  split at h
  · rename_i u hu; cases h; exact ⟨u, hu, rfl⟩
  · cases h
  · cases h

/-- Everything one move can do: the engine's turn, the program's next access, or nothing once the program stopped. -/
theorem move_next {α : Type} {a : Agent} {r q : HostRun α} (h : r.move a = .next q) :
    (a = .engine ∧ r.take .engine r.program = .next q) ∨
    (a = .host ∧ r.program.access = none ∧ q = r) ∨
    (a = .host ∧ ∃ ev, r.program.access = some ev ∧
      r.take ev (r.program.rest (wordRead r.system.engine ev)) = .next q) := by
  cases a with
  | engine => exact .inl ⟨rfl, h⟩
  | host =>
    simp only [HostRun.move] at h
    split at h
    · rename_i hp; cases h; exact .inr (.inl ⟨rfl, hp, rfl⟩)
    · rename_i ev hp; exact .inr (.inr ⟨rfl, ev, hp, h⟩)

@[simp] theorem moves_nil {α : Type} (r : HostRun α) : r.moves [] = .next r := rfl

/-- A schedule from the state its first move leaves. -/
theorem moves_cons {α : Type} {a : Agent} {r q : HostRun α} (l : List Agent) (h : r.move a = .next q) :
    r.moves (a :: l) = q.moves l := by
  simp [HostRun.moves, h]

/-- Schedules add up. -/
theorem moves_append {α : Type} {l : List Agent} {r q : HostRun α} (m : List Agent) (h : r.moves l = .next q) :
    r.moves (l ++ m) = q.moves m := by
  induction l generalizing r with
  | nil => cases h; rfl
  | cons a l ih =>
    simp only [HostRun.moves, List.cons_append] at h ⊢
    split at h
    · exact ih h
    · cases h
    · cases h

/-- R133: one step of the settled bit along a run. -/
theorem settledOver_succ {s u : State} (k : Nat) (b : Bool) (h : step s = .next u) :
    settledOver (k + 1) b s = settledOver k (settledAfter (nextEvent s) u b) u := by
  simp [settledOver, h]

/-- R133: a settled run has BUSY = 0 (an accepted command sets BUSY and unsettles it in one step). -/
theorem settledAfter_not_busy {ev : Event} {u : State} {b : Bool} (h : settledAfter ev u b = true) :
    u.engine.busy = false := by
  simp only [settledAfter, Bool.and_eq_true, Bool.not_eq_true'] at h
  exact h.2

end Sys2Proof.Machine
end

