-- ==== Sys2Proof/Laws/PerInstr.lean ====
section
/-! SUPPORT. Statements about every command as syntax, one lemma per constructor. -/

/-- 30_encoding.md R63: the word of a well-formed command matches its row, `(v & mask) = match`. -/
def Sys2Proof.Laws.EncodeMatchesRow.Statement (i : Sys2Proof.Instr) : Prop :=
  i.WellFormed → Sys2Proof.encode i &&& Sys2Proof.rowMask i = Sys2Proof.rowWord i

namespace Sys2Proof.Laws.EncodeMatchesRow

theorem nop : Statement .nop := fun _ => by decide
theorem init : Statement .init := fun _ => by decide
theorem begin : Statement .begin := fun _ => by decide
theorem round (n : Nat) : Statement (.round n) := by
  intro h
  have hn : n ≤ 127 := by simpa [Instr.WellFormed, Instr.wellFormed] using h
  have table : ∀ k : Fin 128, encode (.round k.val) &&& rowMask (.round k.val) = rowWord (.round k.val) := by decide
  exact table ⟨n, by omega⟩
theorem finish : Statement .finish := fun _ => by decide
theorem compress : Statement .compress := fun _ => by decide
theorem abort : Statement .abort := fun _ => by decide
theorem rotr (n : Nat) : Statement (.rotr n) := by
  intro h
  have hn : n ≤ 31 := by simpa [Instr.WellFormed, Instr.wellFormed] using h
  have table : ∀ k : Fin 32, encode (.rotr k.val) &&& rowMask (.rotr k.val) = rowWord (.rotr k.val) := by decide
  exact table ⟨n, by omega⟩
theorem ch : Statement .ch := fun _ => by decide
theorem maj : Statement .maj := fun _ => by decide
theorem bsig0 : Statement .bsig0 := fun _ => by decide
theorem bsig1 : Statement .bsig1 := fun _ => by decide
theorem ssig0 : Statement .ssig0 := fun _ => by decide
theorem ssig1 : Statement .ssig1 := fun _ => by decide

end Sys2Proof.Laws.EncodeMatchesRow
end

