-- ==== Sys2Proof/Machine/Assembler.lean ====
section
/-! DEFINITION. The assembler syntax of one command (30_encoding.md R69): case-insensitive mnemonics, decimal or `0x`
operands, `<n>` in 0..127 and `<s>` in 0..31, any other value refused. -/

namespace Sys2Proof.Machine

/-- R69: the commands without an operand. -/
def plainMnemonics : List (String × Instr) := [
  ("NOP", .nop), ("INIT", .init), ("BEGIN", .begin), ("FINISH", .finish), ("COMPRESS", .compress), ("ABORT", .abort),
  ("CH", .ch), ("MAJ", .maj), ("BSIG0", .bsig0), ("BSIG1", .bsig1), ("SSIG0", .ssig0), ("SSIG1", .ssig1)]

/-- R69: the commands with an operand. -/
def operandMnemonics : List (String × (Nat → Instr)) := [("ROUND", .round), ("ROTR", .rotr)]

/-- The value of a digit in base 16. -/
def digitValue (c : Char) : Option Nat :=
  if '0' ≤ c ∧ c ≤ '9' then some (c.toNat - '0'.toNat)
  else if 'A' ≤ c ∧ c ≤ 'F' then some (c.toNat - 'A'.toNat + 10)
  else none

/-- The number a string of digits stands for; `none` on an empty string or a foreign digit. -/
def digitsValue (base : Nat) : List Char → Option Nat
  | [] => none
  | cs => cs.foldl (fun acc c =>
      match acc, digitValue c with
      | some a, some d => if d < base then some (base * a + d) else none
      | _, _ => none) (some 0)

/-- R69: a decimal or `0x` operand, already in upper case. -/
def operandValue : List Char → Option Nat
  | '0' :: 'X' :: cs => digitsValue 16 cs
  | cs => digitsValue 10 cs

/-- The blank-separated fields of a line, in upper case; `cur` is the field being read, reversed. -/
def fieldsOf (cur : List Char) : List Char → List (List Char)
  | [] => if cur.isEmpty then [] else [cur.reverse]
  | c :: cs =>
    if c = ' ' then (if cur.isEmpty then fieldsOf [] cs else cur.reverse :: fieldsOf [] cs)
    else fieldsOf (c.toUpper :: cur) cs

/-- R69: one line of assembler, `none` where the assembler refuses it. -/
def assemble (line : String) : Option Instr :=
  match fieldsOf [] line.toList with
  | [m] => (plainMnemonics.find? (fun p => p.1.toList = m)).map Prod.snd
  | [m, arg] =>
    match operandMnemonics.find? (fun p => p.1.toList = m), operandValue arg with
    | some p, some n => if (p.2 n).wellFormed then some (p.2 n) else none
    | _, _ => none
  | _ => none

end Sys2Proof.Machine
end

