-- ==== Sys2Proof/Tests/Slice0.lean ====
section
/-! SUPPORT. The model's own tests: expected values are those of 30_encoding.md, 40_primitives.md, 42_compression.md and
95_test_vectors.md. After them, for every obligation with hypotheses, a witness that meets them. -/

namespace Sys2Proof.Tests

open Sys2Proof Sys2Proof.Machine Sys2Proof.Safety

set_option Elab.async false

/-! ## Helpers -/

/-- The outcome is a next state that satisfies `p`. -/
def nextIs (o : Host.Outcome State Fault Refusal) (p : State → Bool) : Bool :=
  match o with
  | .next u => p u
  | .fault _ => false
  | .refused _ => false

/-- A system with this engine and these steps to come, nothing read and nothing traced. -/
def sys (e : Engine) (l : List Event) : State := ⟨e, l, [], []⟩

/-- The "abc" block of vector V2. -/
def abc : Vector Word 16 := #v[0x61626380, 0, 0, 0, 0, 0, 0, 0, 0, 0, 0, 0, 0, 0, 0, 0x00000018]

/-- An idle engine with no block open and no two kinds of register equal. -/
def idle : Engine := { Engine.reset with
  cv := #v[1, 2, 3, 4, 5, 6, 7, 0xFFFFFFFF], work := ⟨10, 20, 30, 40, 50, 60, 70, 80⟩
  w := Vector.replicate 64 9, m := abc, blkcnt := 0xFFFFFFFF, err := 0x02
  opx := 0x510E527F, opy := 0x9B05688C, opz := 0x1F83D9AB, pres := 77 }

/-- `idle` with a block open at round `t`. -/
def openAt (t : Nat) : Engine := { idle with isOpen := true, t := t }

/-- `e` with a command pending. -/
def pending (e : Engine) (op : Instr) (steps : List MicroStep) : Engine :=
  { e with pend := some ⟨op, steps⟩, busy := true }

/-- The host's next step writes `v` to offset `off`. -/
def writing (e : Engine) (off : BitVec 10) (v : Word) : State := sys e [.write off 4 v]

/-- `off` written with `v` ends in ERR = `err` and no other change of the engine. -/
def onlySetsErr (e : Engine) (off : BitVec 10) (n : Nat) (v : Word) (err : BitVec 5) : Bool :=
  nextIs (step (sys e [.write off n v])) (fun u => u == sys { e with err := err } [])

/-! ## Well-formedness: ill-formed terms are refused -/

theorem test_round_128_refused : (Instr.round 128).wellFormed = false := by decide
theorem test_rotr_32_refused : (Instr.rotr 32).wellFormed = false := by decide
theorem test_operand_limits_pass : (Instr.round 127).wellFormed = true ∧ (Instr.rotr 31).wellFormed = true := by decide

/-! ## Decoding: words written out bit by bit from the pattern strings of 30_encoding.md R62 and the opcodes of R63 -/

theorem test_decode_nop : decode 0b00000000000000000000000000000000#32 = .ok .nop := by decide
theorem test_decode_init : decode 0b00000000000000000000000000000001#32 = .ok .init := by decide
theorem test_decode_begin : decode 0b00000000000000000000000000000010#32 = .ok .begin := by decide
theorem test_decode_round : decode 0b00000000000000000101010100000011#32 = .ok (.round 0b1010101) := by decide
theorem test_decode_finish : decode 0b00000000000000000000000000000100#32 = .ok .finish := by decide
theorem test_decode_compress : decode 0b00000000000000000000000000000101#32 = .ok .compress := by decide
theorem test_decode_abort : decode 0b00000000000000000000000000000110#32 = .ok .abort := by decide
theorem test_decode_rotr : decode 0b00000000000000000001011000010000#32 = .ok (.rotr 0b10110) := by decide
theorem test_decode_ch : decode 0b00000000000000000000000000010001#32 = .ok .ch := by decide
theorem test_decode_maj : decode 0b00000000000000000000000000010010#32 = .ok .maj := by decide
theorem test_decode_bsig0 : decode 0b00000000000000000000000000010011#32 = .ok .bsig0 := by decide
theorem test_decode_bsig1 : decode 0b00000000000000000000000000010100#32 = .ok .bsig1 := by decide
theorem test_decode_ssig0 : decode 0b00000000000000000000000000010101#32 = .ok .ssig0 := by decide
theorem test_decode_ssig1 : decode 0b00000000000000000000000000010110#32 = .ok .ssig1 := by decide

/-- The undefined OPCs of R67 at the ends of their ranges, and V34. -/
theorem test_undefined_opcodes :
    [0x07, 0x0F, 0x17, 0xFF, 0x00000107].all (fun v : Word => decode v == .error .undefinedOpcode) = true := by decide
/-- The reserved bits of R66: V30, V32, V33, V35, and ROTR with bit 14. -/
theorem test_reserved_bits : [0x00008003, 0x00002010, 0x00004010, 0x00000101, 0x80000005].all
    (fun v : Word => decode v == .error .reservedBitSet) = true := by decide
/-- The worked encodings of R69. -/
theorem test_encode_worked : encode (.round 1) = 0x00000103#32 ∧ encode (.round 13) = 0x00000D03#32 ∧
    encode (.round 64) = 0x00004003#32 ∧ encode (.rotr 6) = 0x00000610#32 ∧ encode .compress = 0x00000005#32 := by
  decide
theorem test_decode_table_word : decodeTableWord 32 0x00004003 = some (.round 64) ∧
    decodeTableWord 32 0x00000007 = none ∧ decodeTableWord 40 0x0100000005 = none := by decide
/-- R69: case, decimal and hex operands, the refused values. -/
theorem test_assembler : assemble "round 13" = some (.round 13) ∧ assemble "ROTR 0x1F" = some (.rotr 31) ∧
    assemble "Compress" = some .compress ∧ assemble "ROUND 128" = none ∧ assemble "ROTR 32" = none ∧
    assemble "ROUND" = none ∧ assemble "NOP 1" = none := by decide +kernel

/-! ## Functions and tables (95_test_vectors.md 2.1, 2.3, 2.4) -/

theorem test_rotr : rotr 0x12345678 8 = 0x78123456#32 ∧ rotr 0x80000000 31 = 0x00000001#32 ∧
    rotr 0x12345678 0 = 0x12345678#32 := by decide
theorem test_shr : shr 0x12345678 3 = 0x02468ACF#32 ∧ shr 0xFFFFFFFF 10 = 0x003FFFFF#32 := by decide
theorem test_ch_maj : chFn 0xFF00FF00 0x12345678 0x9ABCDEF0 = 0x12BC56F0#32 ∧
    majFn 0xFF00FF00 0x12345678 0x9ABCDEF0 = 0x9A34DE70#32 := by decide
theorem test_mixing : (bsig0Fn 0x12345678, bsig1Fn 0x12345678, ssig0Fn 0x12345678, ssig1Fn 0x12345678) =
    (0x66146474#32, 0x3561ABDA#32, 0xE7FCE6EE#32, 0xA1F78649#32) := by decide
/-- R95, item 3: `Mᵀ · (M · e0)` of each mixing function, bit i being the parity of `f(2^i) & f(1)`. -/
def transposed (f : Word → Word) : Nat :=
  ((List.range 32).map (fun i => 2 ^ i * ((f (1#32 <<< i) &&& f 1).cpop.toNat % 2))).sum
theorem test_not_orthogonal : [bsig0Fn, bsig1Fn, ssig0Fn, ssig1Fn].map transposed =
    [0x00B01A01, 0x080C6021, 0x10220800, 0x42800004] := by decide +kernel
/-- R85: the carry out of bit 31 is dropped. -/
theorem test_addition_wraps : (0xBB67AE85#32 : Word) + 0xD39A2165#32 = 0x8F01CFEA#32 := by decide
/-- The example of R103. -/
theorem test_round_function : roundFn (Working.ofVector initialValue) 0 0x61626380 = ⟨0x5D6AEBCD, 0x6A09E667,
    0xBB67AE85, 0x3C6EF372, 0xFA2A4622, 0x510E527F, 0x9B05688C, 0x1F83D9AB⟩ := by decide
/-- The "abc" row of 2.3, first and last words, and the all-ones block. -/
theorem test_expand : [16, 17, 18, 19, 62, 63].map (wordAt (expand abc)) =
    [0x61626380, 0x000F0000, 0x7DA86405, 0x600003C6, 0xEEABA2CC, 0x12B1EDEB] ∧
    [16, 17, 18, 19].map (wordAt (expand (Vector.replicate 16 0xFFFFFFFF))) =
      [0x203FFFFC, 0x203FFFFC, 0x20099BE4, 0x20099BE4] := by decide +kernel

/-- The first 64 primes, for R86 and R87. -/
def primes : List Nat := [2, 3, 5, 7, 11, 13, 17, 19, 23, 29, 31, 37, 41, 43, 47, 53] ++
  [59, 61, 67, 71, 73, 79, 83, 89, 97, 101, 103, 107, 109, 113, 127, 131] ++
  [137, 139, 149, 151, 157, 163, 167, 173, 179, 181, 191, 193, 197, 199, 211, 223] ++
  [227, 229, 233, 239, 241, 251, 257, 263, 269, 271, 277, 281, 283, 293, 307, 311]

/-- `k` is the first 32 bits of the fractional part of the `r`-th root of `p`. -/
def isRootFraction (r p k : Nat) : Bool :=
  (List.range 20).any (fun a =>
    (a * 2 ^ 32 + k) ^ r ≤ p * 2 ^ (32 * r) && p * 2 ^ (32 * r) < (a * 2 ^ 32 + k + 1) ^ r)

/-- R86: K from the cube roots of the first 64 primes. -/
theorem test_round_constants :
    (primes.zip roundConstants.toList).all (fun p => isRootFraction 3 p.1 p.2.toNat) = true := by decide +kernel
/-- R87: IV from the square roots of the first 8 primes. -/
theorem test_initial_value :
    (primes.zip initialValue.toList).all (fun p => isRootFraction 2 p.1 p.2.toNat) = true := by decide +kernel

/-- V2 and V23: Compress on the "abc" block, and a fold in which every word wraps. -/
theorem test_compress_abc : compressFn initialValue abc = #v[0xBA7816BF, 0x8F01CFEA, 0x414140DE, 0x5DAE2223,
    0xB00361A3, 0x96177A9C, 0xB410FF61, 0xF20015AD] := by decide +kernel
theorem test_compress_wraps : compressFn (Vector.replicate 8 0xFFFFFFFF) (Vector.replicate 16 0) =
    #v[0x25260809, 0x56C94BA8, 0xE7D6DD48, 0x222DF1D3, 0xF914C4B0, 0xB823BEB6, 0xE8CEBB7A, 0xDDCDFF59] := by
  decide +kernel
/-- V1, through padding and digest (R127, R126, R130). -/
theorem test_digest_of_empty : compressAll [] = some [0xE3, 0xB0, 0xC4, 0x42, 0x98, 0xFC, 0x1C, 0x14, 0x9A, 0xFB, 0xF4,
    0xC8, 0x99, 0x6F, 0xB9, 0x24, 0x27, 0xAE, 0x41, 0xE4, 0x64, 0x9B, 0x93, 0x4C, 0xA4, 0x95, 0x99, 0x1B, 0x78, 0x52,
    0xB8, 0x55] := by decide +kernel
/-- R71: the expansion that program P5 writes out. -/
theorem test_primitive_call : (primitiveCall .bsig1 1 0 0 .done : HostProgram Word) =
    .wr .opx 1 (.wr .opy 0 (.wr .opz 0 (.wr .cmd 0x00000014 (.wait (.rd .pres .done))))) := rfl
/-- V3: total lengths, and the last 10 bytes of the 55-byte message. -/
theorem test_padding : [0, 3, 55, 56, 64].map (fun k => (pad (List.replicate k 0x61)).map List.length) =
    [some 64, some 64, some 64, some 128, some 128] ∧
    (pad (List.replicate 55 0x61)).map (fun p => p.drop 54) = some [0x61, 0x80, 0, 0, 0, 0, 0, 0, 0x01, 0xB8] := by
  decide +kernel

/-! ## Commands: one host step or one engine turn each -/

/-- V16, V17. -/
theorem test_nop : nextIs (runCommand .nop 1 (sys (openAt 7) [])) (fun u => u == sys (openAt 7) []) = true := by
  decide +kernel
/-- V18: BLKCNT and CV. -/
theorem test_init : nextIs (runCommand .init 1 (sys idle []))
    (fun u => u == sys { idle with cv := initialValue, blkcnt := 0 } []) = true := by decide +kernel
/-- V19. -/
theorem test_begin : nextIs (runCommand .begin 1 (sys { idle with cv := initialValue } []))
    (fun u => u.engine.work == ⟨0x6A09E667, 0xBB67AE85, 0x3C6EF372, 0xA54FF53A, 0x510E527F, 0x9B05688C, 0x1F83D9AB,
      0x5BE0CD19⟩ && u.engine.w == Vector.replicate 64 0 && statusWord u.engine == 2 && u.trace == []) = true := by
  decide +kernel

/-- Just after BEGIN with CV = IV and "abc" in M, tracing. -/
def begun : Engine := { openAt 0 with
  cv := initialValue, work := Working.ofVector initialValue, w := Vector.replicate 64 0, traceEn := true, blkcnt := 0 }

/-- V20 and the first record of 2.6. -/
theorem test_round_1 : nextIs (runCommand (.round 1) 1 (sys begun []))
    (fun u => u.engine.t == 1 && u.engine.busy == false && wordAt u.engine.w 0 == 0x61626380 &&
      u.trace.map TraceRecord.words == [[0, 0, 0x5D6AEBCD, 0x6A09E667, 0xBB67AE85, 0x3C6EF372, 0xFA2A4622,
        0x510E527F, 0x9B05688C, 0x1F83D9AB]]) = true := by decide +kernel
/-- V42, V43: 60 + 5 is out of range, 60 + 4 is accepted with four round micro-steps. -/
theorem test_round_range : onlySetsErr { openAt 60 with err := 0 } 0x00C#10 4 0x00000503 0x04 = true ∧
    nextIs (step (writing (openAt 60) 0x00C#10 0x00000403))
      (fun u => u.engine.pend == some ⟨.round 4, [.round, .round, .round, .round]⟩ && u.engine.busy) = true := by
  decide +kernel
/-- The fold of R109's corner case, carrying out of bit 31, and BLKCNT wrapping. -/
theorem test_finish : nextIs (runCommand .finish 1 (sys { openAt 64 with
      cv := #v[0, 0xBB67AE85, 0, 0, 0, 0, 0, 0], work := ⟨0, 0xD39A2165, 0, 0, 0, 0, 0, 0⟩ } []))
    (fun u => wordAt u.engine.cv 1 == 0x8F01CFEA && u.engine.blkcnt == 0 && u.engine.isOpen == false &&
      u.engine.t == 64) = true := by decide +kernel
/-- V36, V37. -/
theorem test_finish_refused : onlySetsErr { openAt 13 with err := 0 } 0x00C#10 4 0x00000004 0x02 = true ∧
    onlySetsErr { idle with err := 0 } 0x00C#10 4 0x00000004 0x02 = true := by decide +kernel
/-- 2.5, "During a COMPRESS": 66 micro-steps pending and STATUS 1 at acceptance, STATUS 3 and T 0 after the first. -/
theorem test_compress_accepted : nextIs (exec .compress (sys idle [])) (fun u => statusWord u.engine == 1 &&
    u.engine.pend.map (fun p => p.remaining.length) == some 66) = true := by decide +kernel
theorem test_compress_first_step : nextIs (runCommand .compress 1 (sys idle []))
    (fun u => statusWord u.engine == 3 && u.engine.t == 0) = true := by decide +kernel
/-- V25. -/
theorem test_abort : nextIs (runCommand .abort 1 (sys (openAt 13) []))
    (fun u => u == sys { openAt 13 with isOpen := false } []) = true := by decide +kernel
/-- The rows of 2.2; V17's phase for CH. -/
theorem test_cmd_rotr : nextIs (runCommand (.rotr 6) 1 (sys { idle with opx := 1 } []))
    (fun u => u.engine.pres == 0x04000000) = true := by decide +kernel
theorem test_cmd_ch : nextIs (runCommand .ch 1 (sys (openAt 7) []))
    (fun u => u == sys { openAt 7 with pres := 0x1F85C98C } []) = true := by decide +kernel
theorem test_cmd_maj : nextIs (runCommand .maj 1 (sys { idle with
    opx := 0x6A09E667, opy := 0xBB67AE85, opz := 0x3C6EF372 } [])) (fun u => u.engine.pres == 0x3A6FE667) = true := by
  decide +kernel
theorem test_cmd_bsig0 : nextIs (runCommand .bsig0 1 (sys { idle with opx := 0x6A09E667 } []))
    (fun u => u.engine.pres == 0xCE20B47E) = true := by decide +kernel
theorem test_cmd_bsig1 : nextIs (runCommand .bsig1 1 (sys idle []))
    (fun u => u.engine.pres == 0x3587272B) = true := by decide +kernel
theorem test_cmd_ssig0 : nextIs (runCommand .ssig0 1 (sys { idle with opx := 0x12345678 } []))
    (fun u => u.engine.pres == 0xE7FCE6EE) = true := by decide +kernel
theorem test_cmd_ssig1 : nextIs (runCommand .ssig1 1 (sys { idle with opx := 0x12345678 } []))
    (fun u => u.engine.pres == 0xA1F78649) = true := by decide +kernel

/-! ## The end of a run (43_host_protocol.md R133) -/

/-- The host stops just after a command is accepted: the run has not ended, not even when the engine has finished. -/
theorem test_stop_while_busy : settledOver 3 false (sys idle [hostRd .status, .write 0x00C 4 0]) = false ∧
    settledOver 4 false (sys idle [hostRd .status, .write 0x00C 4 0, .engine, hostRd .pres]) = false := by
  decide +kernel
/-- A read of STATUS after the command ends it, and reads of results after that keep it ended; one during it does not. -/
theorem test_poll_ends_run : settledOver 4 false (sys idle [.write 0x00C 4 0, .engine, hostRd .status, hostRd .pres]) =
      true ∧ settledOver 3 false (sys idle [.write 0x00C 4 0, hostRd .status, .engine]) = false := by decide +kernel
/-- R71: WAIT repeats its read while BUSY = 1 and goes on at BUSY = 0. -/
theorem test_wait : ((HostProgram.wait (.done 7)).rest 1).access = some (hostRd .status) ∧
    ((HostProgram.wait (.done 7)).rest 2).access = none := by decide
/-- R133: the result holds what CMD, OPX and IV7 read as. -/
theorem test_run_result : [0x003, 0x030, 0x0C7].map ((runResult (sys idle []) (sys idle [])).registers.getD · 1) =
    [0, 0x510E527F, 0x5BE0CD19] := by decide +kernel

/-! ## The window (95_test_vectors.md 2.7, 2.9) -/

/-- An idle engine with ERR = 0, in which 2.7's rows start. -/
def clean : Engine := { idle with err := 0 }

theorem test_illegal_writes : [0x00008003, 0x00002010, 0x00000101, 0x00000007, 0x000000FF, 0x80000005].all
    (fun v => onlySetsErr clean 0x00C#10 4 v 0x01) = true := by decide +kernel
/-- V31: ILLEGAL before SEQUENCE and RANGE. V38: SEQUENCE before RANGE. -/
theorem test_check_order : onlySetsErr { openAt 0 with err := 0 } 0x00C#10 4 0x00008003 0x01 = true ∧
    onlySetsErr clean 0x00C#10 4 0x00000003 0x02 = true := by decide +kernel
/-- V39, V40, V41. -/
theorem test_open_block_rejections : [0x00000001, 0x00000002, 0x00000005].all
    (fun v => onlySetsErr { openAt 5 with err := 0 } 0x00C#10 4 v 0x02) = true ∧
    onlySetsErr { openAt 5 with err := 0 } 0x020#10 4 0 0x02 = true ∧
    onlySetsErr { openAt 0 with err := 0 } 0x00C#10 4 0x00000003 0x04 = true := by decide +kernel
/-- V46, V47, V48. -/
theorem test_busy_rejections : onlySetsErr (pending clean .nop [.nop]) 0x080#10 4 1 0x08 = true ∧
    onlySetsErr (pending clean .nop [.nop]) 0x00C#10 4 7 0x08 = true ∧
    onlySetsErr (pending clean .nop [.nop]) 0x082#10 4 1 0x10 = true := by decide +kernel
/-- V49, V50, V51: the read-only and reserved offsets, and a 2-byte write. -/
theorem test_access_rejections : [0x004#10, 0x010#10, 0x018#10, 0x01C#10, 0x040#10, 0x05C#10, 0x060#10, 0x0CC#10,
      0x0D0#10, 0x100#10, 0x1FC#10, 0x200#10, 0x300#10, 0x31C#10, 0x320#10, 0x3FC#10].all
    (fun off => onlySetsErr clean off 4 5 0x10) = true ∧ onlySetsErr clean 0x080#10 2 5 0x10 = true := by
  decide +kernel
/-- V52, V53, V54. -/
theorem test_write_one_to_clear : onlySetsErr { clean with err := 0x03 } 0x008#10 4 1 0x02 = true ∧
    onlySetsErr { clean with err := 0x1F } 0x008#10 4 0xFFFFFFFF 0x00 = true ∧
    nextIs (step (writing clean 0x000#10 0xFFFFFFFF)) (fun u => ctrlWord u.engine == 1) = true := by decide +kernel
/-- V55 and the ends of the register files. -/
theorem test_reads : memRead idle 0x022#10 4 = 0 ∧ memRead idle 0x00C#10 4 = 0 ∧ memRead idle 0x018#10 4 = 0 ∧
    memRead idle 0x03C#10 4 = 0xFFFFFFFF ∧ memRead idle 0x05C#10 4 = 80 ∧ memRead idle 0x0BC#10 4 = 0x18 ∧
    memRead idle 0x200#10 4 = 0x428A2F98 ∧ memRead idle 0x234#10 4 = 0x80DEB1FE ∧
    memRead idle 0x2FC#10 4 = 0xC67178F2 ∧ memRead idle 0x31C#10 4 = 0x5BE0CD19 ∧ memRead idle 0x080#10 2 = 0 := by
  decide +kernel
/-- 2.9: reset during an open block. -/
theorem test_reset_event : nextIs (step (sys (pending (openAt 7) .nop [.nop]) [.reset]))
    (fun u => u == State.reset) = true := by decide +kernel
/-- Log entry 3: a placed command is the very next step, as the first after reset. -/
theorem test_fetch_word : step (State.reset.withFetchWord 32 0x00000005) = exec .compress State.reset := rfl

/-! ## Witnesses: for each obligation with hypotheses, states and operands that meet them -/

/-- The host's next step writes `v` to `r`. -/
def hostWrites (e : Engine) (r : Reg) (v : Word) : State := sys e [hostWr r v]

/-- The engine, with nothing else left to do, has one micro-step `m` of `op` to perform. -/
def turning (e : Engine) (op : Instr) (m : MicroStep) : State := sys (pending e op [m]) []

theorem idle_is_idle : Idle idle := ⟨rfl, rfl⟩
theorem openAt_is_idle (t : Nat) : Idle (openAt t) := ⟨rfl, rfl⟩

theorem witness_DecodeInvertsEncode : (Instr.round 0).WellFormed ∧ (Instr.round 127).WellFormed ∧
    (Instr.rotr 31).WellFormed ∧ Instr.ch.WellFormed := by decide
theorem witness_EncodeInvertsDecode : ∃ v i, decode v = .ok i ∧ i = .round 127 := ⟨0x00007F03, _, rfl, rfl⟩
theorem witness_DecodeSelectsTheRow : ∃ (v : Word) (i j : Instr), decode v = .ok i ∧ v &&& rowMask j = rowWord j ∧
    v &&& rowMask i = rowWord i ∧ i ≠ j := ⟨0x00004003, .round 64, .round 0, by decide⟩
theorem witness_IllegalWordsAreRejected :
    (∃ v : Word, v.toNat % 256 = 0x07) ∧ (∃ v : Word, v.toNat % 256 = 0x0F) ∧ (∃ v : Word, v.toNat % 256 = 0x17) ∧
    (∃ v : Word, v.toNat % 256 = 0x03 ∧ v.toNat / 2 ^ 15 = 1) ∧
    (∃ v : Word, v.toNat % 256 = 0x10 ∧ v.toNat / 2 ^ 13 = 1) ∧
    (∃ v : Word, v.toNat % 256 = 0x06 ∧ v.toNat / 2 ^ 8 = 1) ∧
    (∃ v : Word, v.toNat % 256 = 0x11 ∧ v.toNat / 2 ^ 8 = 1) :=
  ⟨⟨0x07, by decide⟩, ⟨0x0F, by decide⟩, ⟨0x17, by decide⟩, ⟨0x8003, by decide⟩, ⟨0x2010, by decide⟩,
    ⟨0x106, by decide⟩, ⟨0x111, by decide⟩⟩
theorem witness_StepRunsDecodedCommand : ∃ (s : State) (v : Word) (rest : List Event) (i : Instr),
    s.agenda = .write 0x00C#10 4 v :: rest ∧ decode v = .ok i :=
  ⟨writing idle 0x00C#10 0x00000014, _, _, .bsig1, rfl, by decide⟩
theorem witness_PlacedCommandRunsNext : (Instr.round 127).WellFormed ∧ (Instr.rotr 0).WellFormed := by decide
theorem witness_EngineMovesWhenScheduled :
    (∃ s : State, s.agenda = []) ∧ (∃ s : State, s.agenda = .engine :: []) ∧
    (∃ s : State, s.agenda = [] ∧ s.engine.pend = none) ∧
    (∃ s : State, s.agenda = .engine :: [] ∧ s.engine.pend = none) :=
  ⟨⟨turning idle .nop .nop, rfl⟩, ⟨sys (pending idle .nop [.nop]) [.engine], rfl⟩, ⟨sys idle [], rfl, rfl⟩,
    ⟨sys idle [.engine], rfl, rfl⟩⟩

/-- The clauses of the check order, each at an offset or operand at the edge of its range. -/
theorem witness_WriteCheckOrder_shape : (∃ (n : Nat) (off : BitVec 10), n ≠ 4 ∧ off.toNat % 4 = 0) ∧
    (∃ (n : Nat) (off : BitVec 10), n = 4 ∧ off.toNat % 4 ≠ 0) :=
  ⟨⟨2, 0x080, by decide⟩, ⟨4, 0x3FF, by decide⟩⟩
theorem witness_WriteCheckOrder_busy : ∃ s : State, s.engine.busy = true ∧ s.agenda = .write 0x00C#10 4 7#32 :: [] :=
  ⟨writing (pending idle .nop [.nop]) 0x00C 7, rfl, rfl⟩
theorem witness_WriteCheckOrder_access : ∃ s : State, s.engine.busy = false ∧
    s.agenda = [.write 0x07C#10 4 5#32, .write 0x040#10 4 5#32, .write 0x0CC#10 4 5#32, .write 0x3FC#10 4 5#32] :=
  ⟨sys idle _, rfl, rfl⟩
theorem witness_WriteCheckOrder_cv : ∃ s : State, s.engine.busy = false ∧ s.engine.isOpen = true ∧
    s.agenda = [.write 0x020#10 4 5#32, .write 0x03C#10 4 5#32] := ⟨sys (openAt 3) _, rfl, rfl, rfl⟩
theorem witness_WriteCheckOrder_illegal : ∃ (s : State) (v : Word) (r : Illegal), s.engine.busy = false ∧
    s.agenda = .write 0x00C#10 4 v :: [] ∧ decode v = .error r :=
  ⟨writing (openAt 64) 0x00C 0x00008003, _, .reservedBitSet, rfl, rfl, by decide⟩
theorem witness_WriteCheckOrder_round :
    (∃ (s : State) (v : Word) (k : Nat), s.engine.busy = false ∧ s.agenda = .write 0x00C#10 4 v :: [] ∧
      decode v = .ok (.round k) ∧ s.engine.isOpen = false) ∧
    (∃ (s : State) (v : Word), s.engine.busy = false ∧ s.agenda = .write 0x00C#10 4 v :: [] ∧
      decode v = .ok (.round 0) ∧ s.engine.isOpen = true) ∧
    (∃ (s : State) (v : Word), s.engine.busy = false ∧ s.agenda = .write 0x00C#10 4 v :: [] ∧
      decode v = .ok (.round 5) ∧ s.engine.isOpen = true ∧ s.engine.t + 5 = 65) :=
  ⟨⟨writing idle 0x00C 3, _, 0, rfl, rfl, by decide, rfl⟩, ⟨writing (openAt 0) 0x00C 3, _, rfl, rfl, by decide, rfl⟩,
    ⟨writing (openAt 60) 0x00C 0x00000503, _, rfl, rfl, by decide, rfl, rfl⟩⟩
theorem witness_WriteCheckOrder_sequence :
    (∃ s : State, s.engine.busy = false ∧ s.agenda = .write 0x00C#10 4 5#32 :: [] ∧ decode 5#32 = .ok .compress ∧
      s.engine.isOpen = true) ∧
    (∃ s : State, s.engine.busy = false ∧ s.agenda = .write 0x00C#10 4 4#32 :: [] ∧ decode 4#32 = .ok .finish ∧
      s.engine.isOpen = true ∧ s.engine.t = 63) :=
  ⟨⟨writing (openAt 0) 0x00C 5, rfl, rfl, by decide, rfl⟩, ⟨writing (openAt 63) 0x00C 4, rfl, rfl, by decide, rfl, rfl⟩⟩
theorem witness_AcceptanceConditions_write : ∃ s : State, s.engine.busy = false ∧
    s.agenda = .write 0x00C#10 4 7#32 :: [] := ⟨writing idle 0x00C 7, rfl, rfl⟩
theorem witness_AcceptanceConditions_reject : (openAt 60).busy = false ∧ (openAt 60).isOpen = true ∧
    64 < (openAt 60).t + 5 ∧ (openAt 60).t ≠ 64 ∧ idle.busy = false ∧ idle.isOpen = false ∧
    decode 0x00000017#32 = .error .undefinedOpcode ∧ decode 0x00000001#32 = .ok .init := by decide
theorem witness_AcceptanceConditions_accept :
    ((openAt 60).busy = false ∧ (openAt 60).isOpen = true ∧ 1 ≤ 4 ∧ (openAt 60).t + 4 ≤ 64) ∧
    ((openAt 64).busy = false ∧ (openAt 64).isOpen = true ∧ (openAt 64).t = 64) ∧
    (idle.busy = false ∧ idle.isOpen = false) := by decide
/-- For `TurnedAwayWhenBusy` too. -/
theorem witness_BusyCommandIsRejected : ∃ s : State, s.engine.busy = true :=
  ⟨turning idle .nop .nop, rfl⟩
theorem witness_WriteRecordsAtMostOneError :
    (∃ s u : State, s.agenda = .write 0x3FC#10 4 5#32 :: [] ∧ step s = .next u ∧ u.engine.err ≠ s.engine.err) ∧
    (∃ s u : State, s.agenda = .write 0x080#10 4 5#32 :: [] ∧ step s = .next u ∧ u.engine.err = s.engine.err) ∧
    (∃ s u : State, s.agenda = .write 0x008#10 4 2#32 :: [] ∧ step s = .next u ∧ u.engine.err = 0) :=
  ⟨⟨writing idle 0x3FC 5, _, rfl, rfl, by decide⟩, ⟨writing idle 0x080 5, _, rfl, rfl, by decide⟩,
    ⟨writing idle 0x008 2, _, rfl, rfl, by decide⟩⟩
theorem witness_ErrBitsAreSticky :
    (∃ s u : State, step s = .next u ∧ s.engine.err.getLsbD 1 = true ∧ u.engine.err.getLsbD 1 = false ∧
      HostWrites .err 2 s) ∧
    (∃ s u : State, step s = .next u ∧ s.engine.err.getLsbD 1 = true ∧ u.engine.err.getLsbD 1 = false ∧ Resets s) :=
  ⟨⟨hostWrites idle .err 2, _, rfl, by decide, by decide, rfl, [], rfl⟩,
    ⟨sys idle [.reset], _, rfl, by decide, by decide, [], rfl⟩⟩

/-- The phases in which each command statement runs, and those in which it says the command is turned away. -/
theorem witness_NopChangesNothing : Idle (sys idle []).engine ∧ Idle (sys (openAt 7) []).engine :=
  ⟨idle_is_idle, openAt_is_idle 7⟩
theorem witness_InitLoadsStandardValue : (Idle (sys idle []).engine ∧ (sys idle []).engine.isOpen = false) ∧
    ((sys (openAt 0) []).engine.busy = false ∧ (sys (openAt 0) []).engine.isOpen = true) :=
  ⟨⟨idle_is_idle, rfl⟩, rfl, rfl⟩
theorem witness_BeginOpensBlock : (Idle (sys idle []).engine ∧ (sys idle []).engine.isOpen = false) ∧
    ((sys (openAt 64) []).engine.busy = false ∧ (sys (openAt 64) []).engine.isOpen = true) :=
  ⟨⟨idle_is_idle, rfl⟩, rfl, rfl⟩
theorem witness_RoundStepEffect : MicroStep.round ∈ microSteps (.round 1) ∧ MicroStep.round ∈ microSteps .compress ∧
    (∃ s : State, s.engine.pend = some ⟨.round 1, .round :: []⟩ ∧ s.engine.t = 63) ∧
    (∃ s : State, s.engine.pend = some ⟨.compress, .round :: [.round, .finish]⟩ ∧ s.engine.t < 64) :=
  ⟨by decide, by decide, ⟨turning (openAt 63) (.round 1) .round, rfl, rfl⟩,
    ⟨sys (pending (openAt 62) .compress [.round, .round, .finish]) [], rfl, by decide⟩⟩
theorem witness_RoundCommandRunsItsRounds :
    (Idle (openAt 63) ∧ (openAt 63).isOpen = true ∧ 1 ≤ 1 ∧ (openAt 63).t + 1 ≤ 64) ∧
    (Idle (openAt 0) ∧ (openAt 0).isOpen = true ∧ 1 ≤ 64 ∧ (openAt 0).t + 64 ≤ 64) ∧
    ((openAt 64).busy = false ∧ (openAt 64).isOpen = true ∧ 64 < (openAt 64).t + 1) ∧
    (idle.busy = false ∧ idle.isOpen = false) :=
  ⟨⟨openAt_is_idle 63, rfl, by decide, by decide⟩, ⟨openAt_is_idle 0, rfl, by decide, by decide⟩, by decide, by decide⟩
theorem witness_FinishFoldsBlock : (Idle (openAt 64) ∧ (openAt 64).isOpen = true ∧ (openAt 64).t = 64) ∧
    ((openAt 63).busy = false ∧ (openAt 63).t ≠ 64) ∧ (idle.busy = false ∧ idle.isOpen = false) :=
  ⟨⟨openAt_is_idle 64, rfl, rfl⟩, by decide, by decide⟩
theorem witness_CompressComputesCompression : (Idle idle ∧ idle.isOpen = false) ∧
    ((openAt 64).busy = false ∧ (openAt 64).isOpen = true) ∧ (∃ k : Nat, 1 ≤ k ∧ k ≤ 65 ∧ k = 1) ∧
    (∃ k : Nat, 1 ≤ k ∧ k ≤ 65 ∧ k = 65) := ⟨⟨idle_is_idle, rfl⟩, by decide, ⟨1, by decide⟩, ⟨65, by decide⟩⟩
theorem witness_AbortClosesWithoutFold : Idle (openAt 13) ∧ Idle idle := ⟨openAt_is_idle 13, idle_is_idle⟩
theorem witness_RotrWritesResult : (0 ≤ 31 ∧ 31 ≤ 31 ∧ Idle idle ∧ Idle (openAt 7)) ∧
    (∃ v : Word, v.toNat % 256 = 0x10 ∧ v.toNat / 2 ^ 13 % 4 = 1) ∧
    (∃ v : Word, v.toNat % 256 = 0x10 ∧ v.toNat / 2 ^ 13 % 4 = 2) :=
  ⟨⟨by decide, by decide, idle_is_idle, openAt_is_idle 7⟩, ⟨0x2010, by decide⟩, ⟨0x4010, by decide⟩⟩
theorem witness_ChAndMajWriteResult : Idle idle ∧ Idle (openAt 7) := ⟨idle_is_idle, openAt_is_idle 7⟩
theorem witness_MixingCommandsWriteResult : Idle idle ∧ Idle (openAt 64) := ⟨idle_is_idle, openAt_is_idle 64⟩
theorem witness_SteppedBlockEqualsCompress : Idle idle ∧ idle.isOpen = false ∧
    (∃ a b : Nat, a = 1 ∧ 1 ≤ b ∧ a + b = 64) ∧ (∃ a b : Nat, 1 ≤ a ∧ b = 1 ∧ a + b = 64) :=
  ⟨idle_is_idle, rfl, ⟨1, 63, by decide⟩, ⟨63, 1, by decide⟩⟩
theorem witness_RotationMovesBits : 0 ≤ 31 ∧ (1 ≤ 31 ∧ 31 ≤ 31) ∧ 31 < 32 := by decide
theorem witness_ChoiceAndMajorityByBit : ∃ i, i < 32 ∧ i = 31 := ⟨31, by decide⟩
theorem witness_MixingIsLinear : ∃ f : Word → Word, f = ssig1Fn ∧ f 1 ≠ 0 := ⟨ssig1Fn, rfl, by decide⟩
theorem witness_ExpandSatisfiesRecurrence : (∃ t, t < 16 ∧ t = 15) ∧ (∃ t, 16 ≤ t ∧ t < 64 ∧ t = 16) ∧
    (∃ t, 16 ≤ t ∧ t < 64 ∧ t = 63) := ⟨⟨15, by decide⟩, ⟨16, by decide⟩, ⟨63, by decide⟩⟩

/-- A block of "abc" run to T = 64. -/
def ranAll : Engine := { openAt 64 with w := expand abc }
theorem ranAll_inv : Inv ranAll := by
  refine ⟨by decide, fun j h1 h2 => absurd h2 (by simpa [ranAll, openAt] using h1), fun j h1 h2 => ?_, rfl, fun p h => by cases h⟩
  have h : ∀ j : Fin 64, 16 ≤ j.val → wordAt ranAll.w j.val = scheduleWord ranAll.m ranAll.w j.val := by decide +kernel
  exact h ⟨j, h2⟩ h1
theorem witness_ScheduleIsExpansionOfLatchedWords : Inv ranAll ∧ ranAll.t = 64 := ⟨ranAll_inv, rfl⟩
theorem witness_ScheduleWordsAreImmutable :
    (∃ s u : State, step s = .next u ∧ wordAt u.engine.w 63 ≠ wordAt s.engine.w 63 ∧ Resets s) ∧
    (∃ s u : State, step s = .next u ∧ wordAt u.engine.w 63 ≠ wordAt s.engine.w 63 ∧ Performs .begin s) ∧
    (∃ s u : State, step s = .next u ∧ wordAt u.engine.w 0 ≠ wordAt s.engine.w 0 ∧ Performs .round s ∧
      s.engine.t = 0) :=
  ⟨⟨sys idle [.reset], _, rfl, by decide +kernel, [], rfl⟩,
    ⟨turning idle .begin .begin, _, rfl, by decide +kernel, .inl rfl, _, _, rfl⟩,
    ⟨turning begun (.round 1) .round, _, rfl, by decide +kernel, ⟨.inl rfl, _, _, rfl⟩, rfl⟩⟩
theorem witness_LateMessageWriteHasNoEffect : ∃ s u : State, 5 < s.engine.t ∧
    (∀ p, s.engine.pend = some p → MicroStep.begin ∉ p.remaining) ∧ engineTurns 1 s = .next u :=
  ⟨turning (openAt 6) (.round 1) .round, _, by decide, fun p h => by cases h; decide, rfl⟩
theorem witness_TraceRecordsEveryRound :
    (∃ s u : State, step s = .next u ∧ Performs .round s ∧ s.engine.traceEn = true) ∧
    (∃ s u : State, step s = .next u ∧ Performs .round s ∧ ¬ (Performs .round s ∧ s.engine.traceEn = true)) :=
  ⟨⟨turning begun (.round 1) .round, _, rfl, ⟨.inl rfl, _, _, rfl⟩, rfl⟩,
    ⟨turning (openAt 6) (.round 1) .round, _, rfl, ⟨.inl rfl, _, _, rfl⟩, fun h => by cases h.2⟩⟩
theorem witness_TraceHasNoEffectOnComputation : ∃ s s' u : State, s.agenda = s'.agenda ∧
    { s.engine with traceEn := false } = { s'.engine with traceEn := false } ∧ s.engine ≠ s'.engine ∧
    Sys2Proof.core.run 1 s = .next u ∧ u.trace ≠ s.trace :=
  ⟨turning begun (.round 1) .round, turning { begun with traceEn := false } (.round 1) .round, _, rfl, rfl,
    by decide +kernel, rfl, by decide +kernel⟩
theorem witness_ReadValues : (2 ≠ 4 ∧ (0x3FF#10).toNat % 4 ≠ 0) ∧ (openAt 64).t ≤ 64 ∧ (openAt 0).t ≤ 64 ∧
    (7 < 8 ∧ 15 < 16 ∧ 63 < 64) ∧
    ((0x060#10).toNat = 0x060 ∧ (0x07C#10).toNat < 0x080 ∧ (0x0FC#10).toNat < 0x100 ∧ 0x320 ≤ (0x3FC#10).toNat) := by
  decide
theorem witness_ReadChangesNoEngineState : ∃ s : State, s.agenda = .read 0x3FF#10 2 :: [] :=
  ⟨sys (pending idle .nop [.nop]) _, rfl⟩
theorem witness_WriteEffects : ∃ (s : State) (v : Word), s.engine.busy = false ∧ s.engine.isOpen = false ∧
    s.agenda = .write (BitVec.ofNat 10 (0x020 + 4 * 7)) 4 v :: [] := ⟨writing idle _ 5, 5, rfl, rfl, rfl⟩
theorem witness_WriteEffects_other : ∀ off ∈ [0x000#10, 0x008#10, 0x014#10, 0x080#10, 0x0BC#10, 0x0C0#10, 0x0C4#10,
    0x0C8#10], ∃ (s : State) (v : Word), s.engine.busy = false ∧ s.agenda = .write off 4 v :: [] :=
  fun off _ => ⟨writing (openAt 3) off 5, 5, rfl, rfl⟩
theorem witness_WriteTouchesOneRegister :
    (∃ s u : State, s.engine.isOpen = false ∧ HostWrites (.cv 7) 5 s ∧ step s = .next u) ∧
    (∃ s u : State, HostWrites (.m 15) 5 s ∧ step s = .next u) ∧ (∃ s u : State, HostWrites .opz 5 s ∧ step s = .next u) :=
  ⟨⟨hostWrites idle (.cv 7) 5, _, rfl, ⟨rfl, [], rfl⟩, rfl⟩, ⟨hostWrites (openAt 3) (.m 15) 5, _, ⟨rfl, [], rfl⟩, rfl⟩,
    ⟨hostWrites (openAt 3) .opz 5, _, ⟨rfl, [], rfl⟩, rfl⟩⟩
theorem witness_RegisterMapIsOneToOne : (0x31C#10).toNat % 4 = 0 ∧ regAt 0x31C#10 = some (.iv 7) ∧
    regAt 0x05C#10 = some (.work 7) ∧ regAt 0x320#10 = none ∧ regAt 0x01C#10 = none := by decide
theorem witness_WindowDecodesItsAddresses : ∃ addr, Config.base + 0x400 ≤ addr := ⟨_, Nat.le_refl _⟩

/-- For the statements about who writes what: a step that makes each kind of change. -/
theorem witness_RoundCounterAdvancesByOne :
    (∃ s u : State, step s = .next u ∧ Performs .round s ∧ s.engine.t = 63 ∧ u.engine.t = 64) ∧
    (∃ s u : State, step s = .next u ∧ Performs .begin s ∧ u.engine.t ≠ s.engine.t) :=
  ⟨⟨turning (openAt 63) (.round 1) .round, _, rfl, ⟨.inl rfl, _, _, rfl⟩, rfl, rfl⟩,
    ⟨turning { idle with t := 64 } .begin .begin, _, rfl, ⟨.inl rfl, _, _, rfl⟩, by decide⟩⟩
theorem witness_OnlyPrimitivesWritePres :
    (∃ s u : State, step s = .next u ∧ u.engine.pres ≠ s.engine.pres ∧ Performs .maj s) ∧
    (∃ s u : State, step s = .next u ∧ u.engine.pres ≠ s.engine.pres ∧ Resets s) :=
  ⟨⟨turning idle .maj .maj, _, rfl, by decide +kernel, .inl rfl, _, _, rfl⟩,
    ⟨sys idle [.reset], _, rfl, by decide, [], rfl⟩⟩
theorem witness_ChainingValueWriters :
    (∃ s u : State, step s = .next u ∧ u.engine.cv ≠ s.engine.cv ∧ Performs .init s) ∧
    (∃ s u : State, step s = .next u ∧ u.engine.cv ≠ s.engine.cv ∧ Performs .finish s) ∧
    (∃ s u : State, step s = .next u ∧ u.engine.cv ≠ s.engine.cv ∧ HostWrites (.cv 7) 5 s) ∧
    (∃ s u : State, step s = .next u ∧ u.engine.cv ≠ s.engine.cv ∧ Resets s) :=
  ⟨⟨turning idle .init .init, _, rfl, by decide +kernel, .inl rfl, _, _, rfl⟩,
    ⟨turning (openAt 64) .finish .finish, _, rfl, by decide +kernel, .inl rfl, _, _, rfl⟩,
    ⟨hostWrites idle (.cv 7) 5, _, rfl, by decide +kernel, rfl, [], rfl⟩,
    ⟨sys idle [.reset], _, rfl, by decide +kernel, [], rfl⟩⟩
theorem witness_HostRegistersChangeByHostOnly :
    (∃ s u : State, step s = .next u ∧ ¬ Resets s ∧ u.engine.m ≠ s.engine.m) ∧
    (∃ s u : State, step s = .next u ∧ ¬ Resets s ∧ u.engine.opx ≠ s.engine.opx) ∧
    (∃ s u : State, step s = .next u ∧ ¬ Resets s ∧ u.engine.opy ≠ s.engine.opy) ∧
    (∃ s u : State, step s = .next u ∧ ¬ Resets s ∧ u.engine.opz ≠ s.engine.opz) ∧
    (∃ s u : State, step s = .next u ∧ ¬ Resets s ∧ u.engine.traceEn ≠ s.engine.traceEn) :=
  ⟨⟨hostWrites idle (.m 15) 5, _, rfl, (by rintro ⟨_, h⟩; cases h), by decide +kernel⟩,
    ⟨hostWrites idle .opx 5, _, rfl, (by rintro ⟨_, h⟩; cases h), by decide⟩,
    ⟨hostWrites idle .opy 5, _, rfl, (by rintro ⟨_, h⟩; cases h), by decide⟩,
    ⟨hostWrites idle .opz 5, _, rfl, (by rintro ⟨_, h⟩; cases h), by decide⟩,
    ⟨hostWrites idle .ctrl 1, _, rfl, (by rintro ⟨_, h⟩; cases h), by decide⟩⟩
theorem witness_BlockCounterWriters :
    (∃ s u : State, step s = .next u ∧ u.engine.blkcnt ≠ s.engine.blkcnt ∧ Performs .init s) ∧
    (∃ s u : State, step s = .next u ∧ u.engine.blkcnt ≠ s.engine.blkcnt ∧ Performs .finish s ∧
      s.engine.blkcnt = 0xFFFFFFFF) ∧
    (∃ s u : State, step s = .next u ∧ u.engine.blkcnt ≠ s.engine.blkcnt ∧ HostWrites .blkcnt 5 s) :=
  ⟨⟨turning idle .init .init, _, rfl, by decide, .inl rfl, _, _, rfl⟩,
    ⟨turning (openAt 64) .finish .finish, _, rfl, by decide, ⟨.inl rfl, _, _, rfl⟩, rfl⟩,
    ⟨hostWrites idle .blkcnt 5, _, rfl, by decide, rfl, [], rfl⟩⟩
theorem witness_WorkingRegisterWriters :
    (∃ s u : State, step s = .next u ∧ u.engine.work ≠ s.engine.work ∧ Performs .begin s) ∧
    (∃ s u : State, step s = .next u ∧ u.engine.work ≠ s.engine.work ∧ Performs .round s) ∧
    (∃ s u : State, step s = .next u ∧ u.engine.work ≠ s.engine.work ∧ Resets s) :=
  ⟨⟨turning idle .begin .begin, _, rfl, by decide +kernel, .inl rfl, _, _, rfl⟩,
    ⟨turning (openAt 63) (.round 1) .round, _, rfl, by decide +kernel, .inl rfl, _, _, rfl⟩,
    ⟨sys idle [.reset], _, rfl, by decide, [], rfl⟩⟩
theorem witness_OpenBitWriters :
    (∃ s u : State, step s = .next u ∧ s.engine.isOpen = false ∧ u.engine.isOpen = true) ∧
    (∃ s u : State, step s = .next u ∧ s.engine.isOpen = true ∧ u.engine.isOpen = false ∧ Performs .finish s) ∧
    (∃ s u : State, step s = .next u ∧ s.engine.isOpen = true ∧ u.engine.isOpen = false ∧ Performs .abort s) :=
  ⟨⟨turning idle .begin .begin, _, rfl, rfl, rfl⟩,
    ⟨turning (openAt 64) .finish .finish, _, rfl, rfl, rfl, .inl rfl, _, _, rfl⟩,
    ⟨turning (openAt 13) .abort .abort, _, rfl, rfl, rfl, .inl rfl, _, _, rfl⟩⟩
theorem witness_BusyBitWriters :
    (∃ s u : State, step s = .next u ∧ s.engine.busy = false ∧ u.engine.busy = true) ∧
    (∃ s u : State, step s = .next u ∧ s.engine.busy = true ∧ u.engine.busy = false ∧ EngineMoves s) ∧
    (∃ s u : State, step s = .next u ∧ s.engine.busy = true ∧ u.engine.busy = false ∧ Resets s) :=
  ⟨⟨hostWrites idle .cmd 0x00000011, _, rfl, rfl, rfl⟩, ⟨turning idle .ch .ch, _, rfl, rfl, rfl, .inl rfl⟩,
    ⟨sys (pending idle .ch [.ch]) [.reset], _, rfl, rfl, rfl, [], rfl⟩⟩

/-- A reachable kind of busy state that has the invariant: "abc" begun, 64 rounds pending. -/
def running : Engine := pending begun (.round 64) (List.replicate 64 .round)
theorem running_inv : Inv running := by
  refine ⟨by decide, fun j _ h => ?_, fun j _ h => absurd h (by simp [running, pending, begun, openAt]), rfl, fun p h => ?_⟩
  · exact (by decide +kernel : ∀ j : Fin 64, wordAt running.w j.val = 0) ⟨j, h⟩
  · cases h
    exact ⟨by decide +kernel, by decide, by decide, rfl, by decide⟩
theorem witness_StepKeepsInvariant : ∃ s u : State, SystemInv s ∧ step s = .next u ∧ u.engine.t = 1 :=
  ⟨sys running [], _, running_inv, rfl, rfl⟩
theorem witness_InvariantNeverStops : SystemInv (sys running []) ∧ SystemInv (sys ranAll [.engine]) :=
  ⟨running_inv, ranAll_inv⟩
theorem witness_AcceptedCommandEnds : ∃ s : State, SystemInv s ∧ s.agenda = [] ∧ ¬ Idle s.engine :=
  ⟨sys running [], running_inv, rfl, fun h => by cases h.1⟩
theorem witness_ResetSetsEveryRegister : ∃ s : State, s.agenda = .reset :: [] ∧ s.engine.busy = true :=
  ⟨sys running _, rfl, rfl⟩
theorem witness_PaddedLengthContract : (∃ p, pad (List.replicate 55 0x61) = some p) ∧
    (∃ p, pad (List.replicate 56 0x61) = some p) ∧ (∃ p, pad [] = some p) := ⟨⟨_, rfl⟩, ⟨_, rfl⟩, ⟨_, rfl⟩⟩
theorem witness_DigestUndoesPacking : ∃ bytes : List Byte, bytes.length = 32 ∧ bytes.getD 31 0 = 0x55 :=
  ⟨List.replicate 32 0x55, by decide⟩
theorem witness_EndedRunStays : ∃ u : State, SystemInv (sys ranAll [hostRd .status]) ∧
    RunEnded 1 (sys ranAll [hostRd .status]) u := ⟨_, ranAll_inv, rfl, rfl, by decide +kernel⟩
/-- "abc" run to T = 64, a block that is closed, or that a pending ABORT closes. -/
def aborted : Engine := { ranAll with isOpen := false }
theorem aborted_inv : Inv aborted :=
  ⟨ranAll_inv.t_le, ranAll_inv.w_unlatched, ranAll_inv.w_latched, rfl, fun p h => by cases h⟩
def aborting : Engine := pending ranAll .abort [.abort]
theorem aborting_inv : Inv aborting :=
  ⟨ranAll_inv.t_le, ranAll_inv.w_unlatched, ranAll_inv.w_latched, rfl, fun p h => by cases h; rfl⟩
theorem witness_CompressAllRunsOnTheEngine : (∃ p prog, pad [] = some p ∧ compressAllProgram [] = some prog) ∧
    (∃ s : State, SystemInv s ∧ Idle s.engine ∧
      ∃ k u, engineTurns k s = .next u ∧ Idle u.engine ∧ u.engine.isOpen = false) ∧
    (∃ s : State, SystemInv s ∧ ¬ Idle s.engine ∧
      ∃ k u, engineTurns k s = .next u ∧ Idle u.engine ∧ u.engine.isOpen = false) :=
  ⟨⟨_, _, rfl, rfl⟩, ⟨sys aborted [], aborted_inv, ⟨rfl, rfl⟩, 0, _, rfl, ⟨rfl, rfl⟩, rfl⟩,
    ⟨sys aborting [], aborting_inv, (fun h => by cases h.1), 1, _, rfl, ⟨rfl, rfl⟩, rfl⟩⟩
theorem witness_AnyGroupingOfRoundsEqualsCompress : Idle idle ∧ idle.isOpen = false ∧
    (∃ ns : List Nat, (∀ n ∈ ns, 1 ≤ n) ∧ ns.sum = 64 ∧ ns = [64]) ∧
    (∃ ns : List Nat, (∀ n ∈ ns, 1 ≤ n) ∧ ns.sum = 64 ∧ ns = [1, 62, 1]) :=
  ⟨idle_is_idle, rfl, ⟨[64], by decide⟩, ⟨[1, 62, 1], by decide⟩⟩

end Sys2Proof.Tests
end

section
/-! SUPPORT. What one step of the system makes of the engine, said once: the effect of each micro-step, of each accepted
host write, and of a whole step. -/

namespace Sys2Proof.Machine

open Sys2Proof.Safety

/-- R105 to R112, R76: the engine that a micro-step leaves, before the micro-step is taken off PEND. -/
inductive MicroEffect (e : Engine) : MicroStep → Engine → Prop
  | nop : MicroEffect e .nop e
  | init : MicroEffect e .init { e with cv := initialValue, blkcnt := 0 }
  | begin : MicroEffect e .begin { e with
      work := Working.ofVector e.cv, w := Vector.replicate 64 0, t := 0, isOpen := true }
  | round (ht : e.t < 64) : MicroEffect e .round (roundStepEngine e)
  | finish : MicroEffect e .finish { e with cv := fold e.cv e.work, blkcnt := e.blkcnt + 1, isOpen := false }
  | abort : MicroEffect e .abort { e with isOpen := false }
  | primitive {m : MicroStep} (hm : isPrimitiveStep m = true) (x : Word) : MicroEffect e m { e with pres := x }

/-- R45, R139: the engine that a host write leaves when the register takes it. -/
inductive WriteEffect (e : Engine) : Reg → Word → Engine → Prop
  | ctrl (v : Word) : WriteEffect e .ctrl v { e with traceEn := v.getLsbD 0 }
  | err (v : Word) : WriteEffect e .err v { e with err := clearErrors v e.err }
  | cmd {v : Word} {i : Instr} (hv : decode v = .ok i) (hc : acceptanceCheck e i = none) :
      WriteEffect e .cmd v { e with pend := some ⟨i, microSteps i⟩, busy := true }
  | blkcnt (v : Word) : WriteEffect e .blkcnt v { e with blkcnt := v }
  | cv (i : Fin 8) (v : Word) (ho : e.isOpen = false) :
      WriteEffect e (.cv i) v { e with cv := e.cv.setIfInBounds i v }
  | m (i : Fin 16) (v : Word) : WriteEffect e (.m i) v { e with m := e.m.setIfInBounds i v }
  | opx (v : Word) : WriteEffect e .opx v { e with opx := v }
  | opy (v : Word) : WriteEffect e .opy v { e with opy := v }
  | opz (v : Word) : WriteEffect e .opz v { e with opz := v }

/-- R56: the engine part of `retire`. -/
def retireEngine (op : Instr) (later : List MicroStep) (e : Engine) : Engine :=
  { e with
    pend := if later = [] then none else some ⟨op, later⟩
    busy := if later = [] then false else e.busy }

/-- `retireEngine` is what `retire` does to the engine. -/
theorem retire_engine_eq (op : Instr) (later : List MicroStep) (s : State) :
    (retire op later s).engine = retireEngine op later s.engine := retire_engine op later s

/-- Everything one step from `s` can make of the engine (R56, R140, R151). -/
inductive StepEffect (s : State) : Engine → Prop
  /-- A host read, or an engine turn with nothing pending. -/
  | unchanged : StepEffect s s.engine
  /-- A host write that is rejected. -/
  | rejected (c : ErrorCode) : StepEffect s { s.engine with err := setError c s.engine.err }
  | write {r : Reg} {v : Word} {e : Engine} (hw : HostWrites r v s) (he : WriteEffect s.engine r v e) :
      StepEffect s e
  | turn {op : Instr} {m : MicroStep} {later : List MicroStep} {e : Engine} (hs : EngineMoves s)
      (hp : s.engine.pend = some ⟨op, m :: later⟩) (he : MicroEffect s.engine m e) :
      StepEffect s (retireEngine op later e)
  | reset (hr : Resets s) : StepEffect s Engine.reset

/-- R42: a register's offset is 4 times its word index. -/
theorem offsetOf_of_regAtIndex {i : Nat} {r : Reg} (h : regAtIndex i = some r) : (offsetOf r).toNat = 4 * i := by
  simp only [regAtIndex, ite_eq_iff, Option.some.injEq, reduceCtorEq, and_false, false_or, or_false] at h
  casesm* _ ∨ _, _ ∧ _
  all_goals
    subst r
    simp only [offsetOf, Fin.val_ofNat, BitVec.toNat_ofNat]
    omega

/-- R42: an aligned offset that names a register is that register's offset. -/
theorem offsetOf_of_regAt {off : BitVec 10} {r : Reg} (ha : off.toNat % 4 = 0) (hr : regAt off = some r) :
    offsetOf r = off := by
  apply BitVec.eq_of_toNat_eq
  have hi : (offsetOf r).toNat = 4 * (off.toNat / 4) := offsetOf_of_regAtIndex hr
  omega

/-- R43: a legal shape is 4 bytes at an aligned offset. -/
theorem legalShape_iff {off : BitVec 10} {n : Nat} : legalShape off n = true ↔ n = 4 ∧ off.toNat % 4 = 0 := by
  simp [legalShape]

/-- Every micro-step that answers a next state has its listed effect. -/
theorem microStep_effect {m : MicroStep} {s u : State} (h : microStep m s = .next u) :
    MicroEffect s.engine m u.engine := by
  obtain ⟨-, -, ⟨rfl, rfl⟩ | ⟨rfl, rfl⟩ | ⟨rfl, rfl⟩ | ⟨rfl, ht, rfl⟩ | ⟨rfl, rfl⟩ | ⟨rfl, rfl⟩ | ⟨hm, x, rfl⟩⟩ :=
    microStep_next h
  · exact .nop
  · exact .init
  · exact .begin
  · rw [roundStep_engine]; exact .round ht
  · exact .finish
  · exact .abort
  · exact .primitive hm x

/-- A register that does not take a write raises one ERR bit; one that takes it has its listed effect. -/
theorem writeReg_effect {r : Reg} {v : Word} {s u : State} (h : writeReg r v s = .next u) :
    (∃ c, u = raise c s) ∨ WriteEffect s.engine r v u.engine := by
  obtain hc | ⟨rfl, rfl⟩ | ⟨rfl, rfl⟩ | ⟨rfl, i, hv, -, hc, rfl⟩ | ⟨rfl, rfl⟩ | ⟨i, rfl, ho, rfl⟩ | ⟨i, rfl, rfl⟩ |
    ⟨rfl, rfl⟩ | ⟨rfl, rfl⟩ | ⟨rfl, rfl⟩ := writeReg_next h
  · exact .inl hc
  · exact .inr (.ctrl v)
  · exact .inr (.err v)
  · exact .inr (.cmd hv hc)
  · exact .inr (.blkcnt v)
  · exact .inr (.cv i v ho)
  · exact .inr (.m i v)
  · exact .inr (.opx v)
  · exact .inr (.opy v)
  · exact .inr (.opz v)

/-- The two outcomes of a host write at any offset, width and value (R140). -/
theorem memWrite_effect {off : BitVec 10} {n : Nat} {v : Word} {s u : State} (h : memWrite off n v s = .next u) :
    (∃ c, u = raise c s) ∨
    ∃ r, n = 4 ∧ offsetOf r = off ∧ s.engine.busy = false ∧ WriteEffect s.engine r v u.engine := by
  obtain hc | ⟨hshape, hbusy, r, hr, hw⟩ := memWrite_next h
  · exact .inl hc
  · obtain ⟨hn, ha⟩ := legalShape_iff.mp hshape
    exact (writeReg_effect hw).imp_right fun he => ⟨r, hn, offsetOf_of_regAt ha hr, hbusy, he⟩

/-- Every step has one of the effects that `StepEffect` lists. -/
theorem step_effect {s u : State} (h : step s = .next u) : StepEffect s u.engine := by
  obtain ⟨rest, hturn, hagenda⟩ | ⟨off, n, rest, -, rfl⟩ | ⟨off, n, v, rest, hagenda, hw⟩ | ⟨rest, hagenda, rfl⟩ :=
    step_next h
  · have hs : EngineMoves s := hagenda.imp And.left fun ha => ⟨rest, ha⟩
    obtain ⟨-, rfl⟩ | ⟨op, m, later, v, hp, hm, rfl⟩ := engineTurn_next hturn
    · exact .unchanged
    · have he := microStep_effect hm
      rw [retire_engine_eq]
      exact .turn hs hp he
  · exact .unchanged
  · obtain ⟨c, rfl⟩ | ⟨r, rfl, rfl, hbusy, he⟩ := memWrite_effect hw
    · exact .rejected c
    · exact .write ⟨hbusy, rest, hagenda⟩ he
  · exact .reset ⟨rest, hagenda⟩

/-- No micro-step writes BUSY; only the end of one does (R56). -/
theorem MicroEffect.busy_eq {e e' : Engine} {m : MicroStep} (h : MicroEffect e m e') : e'.busy = e.busy := by
  cases h <;> rfl

/-- R18, R29, R50: no micro-step writes M, OPX, OPY, OPZ or TRACE_EN. -/
theorem MicroEffect.hostRegisters_eq {e e' : Engine} {m : MicroStep} (h : MicroEffect e m e') :
    e'.m = e.m ∧ e'.opx = e.opx ∧ e'.opy = e.opy ∧ e'.opz = e.opz ∧ e'.traceEn = e.traceEn := by
  cases h <;> exact ⟨rfl, rfl, rfl, rfl, rfl⟩

/-- R15: CV[0..7] taken as A..H and laid out again is CV. -/
@[simp] theorem toVector_ofVector (v : Vector Word 8) : (Working.ofVector v).toVector = v := by
  apply Vector.ext
  intro i hi
  interval_cases i <;> simp [Working.ofVector, Working.toVector, wordAt]

end Sys2Proof.Machine
end

section
/-! SUPPORT. Who writes what: each register's writers, from the effects of a step (10_state.md section 3 to 6). -/

namespace Sys2Proof.Safety

open Sys2Proof.Machine

/-- Settles O44, by the effects of a step: only BEGIN, a round and reset write T. -/
theorem roundCounterAdvancesByOne : Obligations.RoundCounterAdvancesByOne := by
  intro s u h
  have heff := step_effect h
  generalize u.engine = e at *
  cases heff with
  | unchanged | rejected => exact .inl rfl
  | write hw he => cases he <;> exact .inl rfl
  | turn hs hp he =>
    cases he with
    | begin => exact .inr (.inr ⟨.inl ⟨hs, _, _, hp⟩, rfl⟩)
    | round ht => exact .inr (.inl ⟨⟨hs, _, _, hp⟩, ht, rfl⟩)
    | _ => exact .inl rfl
  | reset hr => exact .inr (.inr ⟨.inr hr, rfl⟩)

/-- Settles O45, by the effects of a step: only a primitive's micro-step and reset write PRES. -/
theorem onlyPrimitivesWritePres : Obligations.OnlyPrimitivesWritePres := by
  intro s u h hne
  have heff := step_effect h
  generalize u.engine = e at *
  cases heff with
  | unchanged | rejected => exact absurd rfl hne
  | write hw he => cases he <;> exact absurd rfl hne
  | turn hs hp he =>
    cases he with
    | primitive hm x => exact .inr ⟨_, hm, hs, _, _, hp⟩
    | _ => exact absurd rfl hne
  | reset hr => exact .inl ⟨hr, rfl⟩

/-- Settles O46, by the effects of a step: only INIT, FINISH, a host write of one CVi and reset write CV. -/
theorem chainingValueWriters : Obligations.ChainingValueWriters := by
  intro s u h hne
  have heff := step_effect h
  generalize u.engine = e at *
  cases heff with
  | unchanged | rejected => exact absurd rfl hne
  | @write r v e hw he =>
    cases he with
    | cv i _ ho => exact .inr (.inr (.inr ⟨i, v, hw, ho, rfl⟩))
    | _ => exact absurd rfl hne
  | turn hs hp he =>
    cases he with
    | init => exact .inr (.inl ⟨⟨hs, _, _, hp⟩, rfl⟩)
    | finish => exact .inr (.inr (.inl ⟨⟨hs, _, _, hp⟩, rfl⟩))
    | _ => exact absurd rfl hne
  | reset hr => exact .inl ⟨hr, rfl⟩

/-- Settles O47, by the effects of a step: no micro-step writes one of these registers, and each write that changes one
changes no other. -/
theorem hostRegistersChangeByHostOnly : Obligations.HostRegistersChangeByHostOnly := by
  intro s u h hnoreset
  have heff := step_effect h
  generalize u.engine = e at *
  cases heff with
  | unchanged | rejected => exact ⟨absurd rfl, absurd rfl, absurd rfl, absurd rfl, absurd rfl⟩
  | @write r v e hw he =>
    cases he with
    | ctrl => exact ⟨absurd rfl, absurd rfl, absurd rfl, absurd rfl, fun _ => ⟨v, hw, rfl⟩⟩
    | m i => exact ⟨fun _ => ⟨i, v, hw, rfl⟩, absurd rfl, absurd rfl, absurd rfl, absurd rfl⟩
    | opx => exact ⟨absurd rfl, fun _ => hw, absurd rfl, absurd rfl, absurd rfl⟩
    | opy => exact ⟨absurd rfl, absurd rfl, fun _ => hw, absurd rfl, absurd rfl⟩
    | opz => exact ⟨absurd rfl, absurd rfl, absurd rfl, fun _ => hw, absurd rfl⟩
    | _ => exact ⟨absurd rfl, absurd rfl, absurd rfl, absurd rfl, absurd rfl⟩
  | turn hs hp he =>
    obtain ⟨hm, hx, hy, hz, ht⟩ := he.hostRegisters_eq
    exact ⟨absurd hm, absurd hx, absurd hy, absurd hz, absurd ht⟩
  | reset hr => exact absurd hr hnoreset

/-- Settles O48, by the effects of a step: only INIT, FINISH, the host's own write and reset write BLKCNT. -/
theorem blockCounterWriters : Obligations.BlockCounterWriters := by
  intro s u h hne
  have heff := step_effect h
  generalize u.engine = e at *
  cases heff with
  | unchanged | rejected => exact absurd rfl hne
  | write hw he =>
    cases he with
    | blkcnt => exact .inr (.inr hw)
    | _ => exact absurd rfl hne
  | turn hs hp he =>
    cases he with
    | init => exact .inl ⟨.inr ⟨hs, _, _, hp⟩, rfl⟩
    | finish => exact .inr (.inl ⟨⟨hs, _, _, hp⟩, rfl⟩)
    | _ => exact absurd rfl hne
  | reset hr => exact .inl ⟨.inl hr, rfl⟩

/-- Settles O49, by the effects of a step: only BEGIN, a round and reset write A..H. -/
theorem workingRegisterWriters : Obligations.WorkingRegisterWriters := by
  intro s u h hne
  have heff := step_effect h
  generalize u.engine = e at *
  cases heff with
  | unchanged | rejected => exact absurd rfl hne
  | write hw he => cases he <;> exact absurd rfl hne
  | turn hs hp he =>
    cases he with
    | begin => exact .inr (.inl ⟨⟨hs, _, _, hp⟩, toVector_ofVector _⟩)
    | round ht => exact .inr (.inr ⟨⟨hs, _, _, hp⟩, rfl⟩)
    | _ => exact absurd rfl hne
  | reset hr => exact .inl ⟨hr, rfl⟩

/-- A bit that keeps its value neither rises nor falls. -/
theorem no_edge_of_eq {a b : Bool} (h : b = a) {P Q : Prop} :
    (a = false → b = true → P) ∧ (a = true → b = false → Q) := by
  subst h
  constructor <;> intro h0 h1 <;> simp [h0] at h1

/-- Settles O50, by the effects of a step: BEGIN sets OPEN, FINISH, ABORT and reset clear it, and nothing else writes
it. -/
theorem openBitWriters : Obligations.OpenBitWriters := by
  intro s u h
  have heff := step_effect h
  generalize u.engine = e at *
  cases heff with
  | unchanged | rejected => exact no_edge_of_eq rfl
  | write hw he => cases he <;> exact no_edge_of_eq rfl
  | turn hs hp he =>
    cases he with
    | begin => exact ⟨fun _ _ => ⟨hs, _, _, hp⟩, nofun⟩
    | finish => exact ⟨nofun, fun _ _ => .inl ⟨hs, _, _, hp⟩⟩
    | abort => exact ⟨nofun, fun _ _ => .inr (.inl ⟨hs, _, _, hp⟩)⟩
    | _ => exact no_edge_of_eq rfl
  | reset hr => exact ⟨nofun, fun _ _ => .inr (.inr hr)⟩

/-- Settles O51, by the effects of a step: an accepted CMD write sets BUSY, the end of the last micro-step and reset
clear it, and nothing else writes it. -/
theorem busyBitWriters : Obligations.BusyBitWriters := by
  intro s u h
  have heff := step_effect h
  generalize u.engine = e at *
  cases heff with
  | unchanged | rejected => exact no_edge_of_eq rfl
  | write hw he =>
    cases he with
    | cmd hv hc => exact ⟨fun _ _ => ⟨_, _, hw, hv, rfl⟩, nofun⟩
    | _ => exact no_edge_of_eq rfl
  | @turn op m later e hs hp he =>
    cases later with
    | nil => exact ⟨nofun, fun _ _ => ⟨.inr ⟨hs, op, m, hp⟩, rfl⟩⟩
    | cons l ls => exact no_edge_of_eq he.busy_eq
  | reset hr => exact ⟨nofun, fun _ _ => ⟨.inl hr, rfl⟩⟩

/-- Settles O56: the reset is the agenda's head, and the engine it leaves is R34's. -/
theorem resetSetsEveryRegister : Obligations.ResetSetsEveryRegister := by
  refine ⟨rfl, fun s rest h => ?_⟩
  rw [step_cons h]
  rfl

end Sys2Proof.Safety
end

section
/-! SUPPORT. The engine's invariant (10_state.md R33, R31) is kept by every step: its half about the message schedule
and its half about the pending command, each over the effects of a step. -/

namespace Sys2Proof.Safety

open Sys2Proof.Machine

/-- R33.1, R33.2: the invariant's half about T and W. -/
structure ScheduleOk (e : Engine) : Prop where
  t_le : e.t ≤ 64
  w_unlatched : ∀ j, e.t ≤ j → j < 64 → wordAt e.w j = 0
  w_latched : ∀ j, 16 ≤ j → j < e.t → wordAt e.w j = scheduleWord e.m e.w j

/-- R33.3, R31: the invariant's half about BUSY and PEND. -/
structure PendOk (e : Engine) : Prop where
  busy_iff : e.busy = e.pend.isSome
  pend_ok : ∀ p, e.pend = some p → PendingOk e p

/-- The invariant is its two halves. -/
theorem inv_iff {e : Engine} : Inv e ↔ ScheduleOk e ∧ PendOk e :=
  ⟨fun h => ⟨⟨h.t_le, h.w_unlatched, h.w_latched⟩, ⟨h.busy_iff, h.pend_ok⟩⟩,
    fun ⟨hs, hp⟩ => ⟨hs.t_le, hs.w_unlatched, hs.w_latched, hp.busy_iff, hp.pend_ok⟩⟩

/-! ## The schedule -/

/-- R97: from word 16 on the schedule does not read M. -/
theorem scheduleWord_of_ge (m m' : Vector Word 16) (w : Vector Word 64) {j : Nat} (h : 16 ≤ j) :
    scheduleWord m w j = scheduleWord m' w j := by
  have hj : ¬ j < 16 := by omega
  simp [scheduleWord, hj]

/-- R97: schedule word `j` reads only words before `j`. -/
theorem scheduleWord_set_of_le (m : Vector Word 16) (w : Vector Word 64) (x : Word) {j t : Nat} (h : j ≤ t) :
    scheduleWord m (w.setIfInBounds t x) j = scheduleWord m w j := by
  unfold scheduleWord
  split
  · rfl
  · have keeps (k : Nat) (hk : k < t) : wordAt (w.setIfInBounds t x) k = wordAt w k := by
      rw [wordAt_set, if_neg (by omega)]
    rw [keeps (j - 2) (by omega), keeps (j - 7) (by omega), keeps (j - 15) (by omega), keeps (j - 16) (by omega)]

/-- R33.2 speaks of T and W only: M may change under it. -/
theorem ScheduleOk.congr {e e' : Engine} (h : ScheduleOk e) (ht : e'.t = e.t) (hw : e'.w = e.w) : ScheduleOk e' where
  t_le := ht ▸ h.t_le
  w_unlatched j := by rw [ht, hw]; exact h.w_unlatched j
  w_latched j hj hlt := by
    rw [hw, scheduleWord_of_ge e'.m e.m e.w hj]
    exact h.w_latched j hj (ht ▸ hlt)

/-- With T = 0 and W all 0 no word is latched. -/
theorem scheduleOk_of_zero {e : Engine} (ht : e.t = 0) (hw : e.w = Vector.replicate 64 0) : ScheduleOk e where
  t_le := by omega
  w_unlatched j _ _ := by rw [hw, wordAt_replicate_zero]
  w_latched j _ hlt := by omega

/-- R105: a round latches W[T] and nothing else of W. -/
theorem ScheduleOk.round {e : Engine} (h : ScheduleOk e) (ht : e.t < 64) :
    ScheduleOk (roundStepEngine e) where
  t_le := ht
  w_unlatched j hj hlt := by
    have hj : e.t + 1 ≤ j := hj
    simp only [roundStepEngine]
    rw [wordAt_set, if_neg (by omega)]
    exact h.w_unlatched j (by omega) hlt
  w_latched j hj hlt := by
    have hlt : j < e.t + 1 := hlt
    simp only [roundStepEngine]
    rw [scheduleWord_set_of_le _ _ _ (by omega), wordAt_set]
    split
    · rename_i heq
      rw [heq.1]
    · exact h.w_latched j hj (by omega)

/-- Every micro-step keeps the schedule's half. -/
theorem ScheduleOk.micro {e e' : Engine} {m : MicroStep} (h : ScheduleOk e) (he : MicroEffect e m e') :
    ScheduleOk e' := by
  cases he with
  | begin => exact scheduleOk_of_zero rfl rfl
  | round ht => exact h.round ht
  | _ => exact h.congr rfl rfl

/-- Every step keeps the schedule's half: outside the micro-steps only reset writes T or W. -/
theorem ScheduleOk.step {s : State} {e : Engine} (h : ScheduleOk s.engine) (he : StepEffect s e) : ScheduleOk e := by
  cases he with
  | unchanged => exact h
  | rejected c => exact h.congr rfl rfl
  | write hw he => cases he <;> exact h.congr rfl rfl
  | turn hs hp he => exact (h.micro he).congr rfl rfl
  | reset hr => exact scheduleOk_of_zero rfl rfl

/-! ## The pending command -/

/-- What PEND may hold depends on OPEN and T only. -/
theorem PendingOk.congr {e e' : Engine} {p : Pending} (h : PendingOk e p) (ho : e'.isOpen = e.isOpen)
    (ht : e'.t = e.t) : PendingOk e' p := by
  unfold PendingOk at h ⊢
  rw [ho, ht]
  exact h

/-- The same of the invariant's half about BUSY and PEND. -/
theorem PendOk.congr {e e' : Engine} (h : PendOk e) (hb : e'.busy = e.busy) (hp : e'.pend = e.pend)
    (ho : e'.isOpen = e.isOpen) (ht : e'.t = e.t) : PendOk e' where
  busy_iff := by rw [hb, hp, h.busy_iff]
  pend_ok p hq := (h.pend_ok p (hp ▸ hq)).congr ho ht

/-- With nothing pending PEND constrains nothing. -/
theorem pendOk_of_none {e : Engine} (hb : e.busy = false) (hp : e.pend = none) : PendOk e where
  busy_iff := by rw [hb, hp]; rfl
  pend_ok p hq := by rw [hp] at hq; cases hq

/-- R139: the record that acceptance leaves meets its own condition. -/
theorem pendingOk_of_accepted {e : Engine} {i : Instr} (hc : acceptanceCheck e i = none) :
    PendingOk e ⟨i, microSteps i⟩ := by
  cases i with
  | init => simpa [acceptanceCheck, needsClosed, PendingOk, microSteps] using hc
  | begin => simpa [acceptanceCheck, needsClosed, PendingOk, microSteps] using hc
  | compress => exact .inl ⟨rfl, by simpa [acceptanceCheck, needsClosed] using hc⟩
  | round n =>
    simp only [acceptanceCheck, needsRounds] at hc
    split_ifs at hc with ho hn
    simp only [PendingOk, microSteps, List.length_replicate, true_and]
    exact ⟨by omega, le_refl n, by simpa using ho, by omega⟩
  | finish => simpa [acceptanceCheck, needsComplete, PendingOk, microSteps] using hc
  | _ => rfl

/-- R104, R110: where micro-steps are left after one is performed, they are again what the command may leave: the rounds
of ROUND, or what follows BEGIN's micro-step in COMPRESS. -/
theorem PendingOk.later {e e' : Engine} {op : Instr} {m l : MicroStep} {ls : List MicroStep}
    (h : PendingOk e ⟨op, m :: l :: ls⟩) (he : MicroEffect e m e') : PendingOk e' ⟨op, l :: ls⟩ := by
  cases op with
  | round n =>
    obtain ⟨hrep, -, hn, ho, ht⟩ := h
    rw [List.length_cons, List.replicate_succ] at hrep
    obtain ⟨rfl, htail⟩ := List.cons.inj hrep
    cases he with
    | round hlt =>
      refine ⟨htail, by simp, ?_, ho, ?_⟩
      · simp only [List.length_cons] at hn ⊢; omega
      · simp only [List.length_cons, roundStepEngine] at ht ⊢; omega
    | primitive hm _ => cases hm
  | compress =>
    obtain ⟨hall, -⟩ | ⟨hrest, ho⟩ := h
    · obtain ⟨rfl, htail⟩ := List.cons.inj hall
      cases he with
      | begin => exact .inr ⟨htail, rfl⟩
      | primitive hm _ => cases hm
    · cases hk : 64 - e.t with
      | zero => rw [hk] at hrest; simp at hrest
      | succ k =>
        rw [hk, List.replicate_succ, List.cons_append] at hrest
        obtain ⟨rfl, htail⟩ := List.cons.inj hrest
        cases he with
        | round _ =>
          have hk' : 64 - (roundStepEngine e).t = k := by simp only [roundStepEngine]; omega
          exact .inr ⟨by rw [hk']; exact htail, ho⟩
        | primitive hm _ => cases hm
  | _ => simp [PendingOk] at h

/-- R56: the record left by an engine turn. -/
theorem PendOk.turn {e e' : Engine} {op : Instr} {m : MicroStep} {later : List MicroStep} (h : PendOk e)
    (hp : e.pend = some ⟨op, m :: later⟩) (he : MicroEffect e m e') : PendOk (retireEngine op later e') := by
  cases later with
  | nil => exact pendOk_of_none rfl rfl
  | cons l ls =>
    refine ⟨?_, fun p hq => ?_⟩
    · calc e'.busy = e.busy := he.busy_eq
        _ = true := by rw [h.busy_iff, hp]; rfl
    · cases hq
      exact ((h.pend_ok _ hp).later he).congr rfl rfl

/-- Every step keeps the half about BUSY and PEND: acceptance starts a record, engine turns run it down. -/
theorem PendOk.step {s : State} {e : Engine} (h : PendOk s.engine) (he : StepEffect s e) : PendOk e := by
  cases he with
  | unchanged => exact h
  | rejected c => exact h.congr rfl rfl rfl rfl
  | write hw he =>
    cases he with
    | cmd hv hc => exact ⟨rfl, fun p hq => by cases hq; exact pendingOk_of_accepted hc⟩
    | _ => exact h.congr rfl rfl rfl rfl
  | turn hs hp he => exact h.turn hp he
  | reset hr => exact pendOk_of_none rfl rfl

/-! ## The invariant -/

/-- Settles O52: every effect of a step keeps both halves of the invariant. -/
theorem stepKeepsInvariant : Obligations.StepKeepsInvariant := by
  intro s u hinv h
  obtain ⟨hsched, hpend⟩ := inv_iff.mp hinv
  have heff := step_effect h
  exact inv_iff.mpr ⟨hsched.step heff, hpend.step heff⟩

/-- Settles O53: at reset no word is latched and nothing is pending. -/
theorem resetHasInvariant : Obligations.ResetHasInvariant :=
  inv_iff.mpr ⟨scheduleOk_of_zero rfl rfl, pendOk_of_none rfl rfl⟩

end Sys2Proof.Safety
end

section
/-! SUPPORT. The register window as a map (20_memory.md R41, R42, R54), and what a read and a write at a register's own
offset come to (R44, R45). -/

namespace Sys2Proof.Machine

open Sys2Proof.Safety

/-- R42: the word index of a register, its offset divided by 4. -/
def indexOf : Reg → Nat
  | .ctrl => 0
  | .status => 1
  | .err => 2
  | .cmd => 3
  | .round => 4
  | .blkcnt => 5
  | .cv i => 8 + i
  | .work i => 16 + i
  | .m i => 32 + i
  | .opx => 48
  | .opy => 49
  | .opz => 50
  | .pres => 51
  | .w i => 64 + i
  | .k i => 128 + i
  | .iv i => 192 + i

/-- `indexOf` is the word index of `offsetOf`. -/
theorem toNat_offsetOf (r : Reg) : (offsetOf r).toNat = 4 * indexOf r := by
  cases r <;> simp only [offsetOf, indexOf, BitVec.toNat_ofNat] <;> omega

/-- R42: the decoder finds every register at its own index, since the indices below it fail their tests. -/
theorem regAtIndex_indexOf (r : Reg) : regAtIndex (indexOf r) = some r := by
  cases r
  case cv i | work i | m i | w i | k i | iv i =>
    simp (disch := omega) only [indexOf, regAtIndex, if_pos, if_neg, Nat.add_sub_cancel_left, Fin.ofNat_val_eq_self]
  all_goals rfl

theorem offsetOf_aligned (r : Reg) : (offsetOf r).toNat % 4 = 0 := by
  rw [toNat_offsetOf, Nat.mul_mod_right]

@[simp] theorem regAt_offsetOf (r : Reg) : regAt (offsetOf r) = some r := by
  rw [regAt, toNat_offsetOf, Nat.mul_div_cancel_left _ (by decide), regAtIndex_indexOf]

@[simp] theorem legalShape_offsetOf (r : Reg) : legalShape (offsetOf r) 4 = true :=
  legalShape_iff.mpr ⟨rfl, offsetOf_aligned r⟩

/-- R54: the reserved word indices. -/
theorem regAtIndex_eq_none_iff {i : Nat} :
    regAtIndex i = none ↔ i = 6 ∨ i = 7 ∨ (24 ≤ i ∧ i < 32) ∨ (52 ≤ i ∧ i < 64) ∨ 200 ≤ i := by
  simp only [regAtIndex, ite_eq_iff, reduceCtorEq, and_false, and_true, false_or]
  omega

/-- R41: an address of the window is decoded at its distance from BASE. -/
theorem windowOffset_base_add (off : BitVec 10) : windowOffset (Config.base + off.toNat) = some off := by
  have hoff : off.toNat < Config.windowBytes := off.isLt
  rw [windowOffset, if_pos (by omega), Nat.add_sub_cancel_left, BitVec.ofNat_toNat, BitVec.setWidth_eq]

/-- R44: a read of a wrong shape (R43) returns 0. -/
theorem memRead_of_not_legalShape (e : Engine) {off : BitVec 10} {n : Nat} (h : n ≠ 4 ∨ off.toNat % 4 ≠ 0) :
    memRead e off n = 0 := by
  rw [memRead, if_neg (by rw [legalShape_iff]; tauto)]

/-- R44: a read of a reserved offset returns 0, in every shape. -/
theorem memRead_of_regAt_eq_none (e : Engine) {off : BitVec 10} (n : Nat) (h : regAt off = none) :
    memRead e off n = 0 := by
  simp [memRead, h]

/-- R54: a read in the listed ranges returns 0, in every shape. -/
theorem memRead_reserved (e : Engine) (off : BitVec 10) (n : Nat) (h : off.toNat = 0x018 ∨ off.toNat = 0x01C ∨
    (0x060 ≤ off.toNat ∧ off.toNat < 0x080) ∨ (0x0D0 ≤ off.toNat ∧ off.toNat < 0x100) ∨ 0x320 ≤ off.toNat) :
    memRead e off n = 0 := by
  apply memRead_of_regAt_eq_none
  rw [regAt, regAtIndex_eq_none_iff]
  omega

/-- R44: a legal read at a register's offset returns what the register reads as. -/
@[simp] theorem memRead_offsetOf (e : Engine) (r : Reg) : memRead e (offsetOf r) 4 = readReg e r := by
  simp [memRead]

/-- R140: with BUSY = 0 a legal write at a register's offset passes the checks of shape and BUSY. -/
theorem step_write {s : State} (r : Reg) {v : Word} {rest : List Event} (hbusy : s.engine.busy = false)
    (ha : s.agenda = .write (offsetOf r) 4 v :: rest) : step s = writeReg r v (s.withAgenda rest) := by
  simp [step_cons ha, perform, memWrite, hbusy]

theorem step_of_hostWrites {s : State} {r : Reg} {v : Word} (h : HostWrites r v s) :
    ∃ rest, step s = writeReg r v (s.withAgenda rest) :=
  let ⟨hbusy, rest, ha⟩ := h
  ⟨rest, step_write r hbusy ha⟩

/-- A write to a register file leaves the other elements. -/
theorem wordAt_set_of_ne {n : Nat} (f : Vector Word n) (x : Word) {i j : Nat} (h : i ≠ j) :
    wordAt (f.setIfInBounds i x) j = wordAt f j := by
  rw [wordAt_set, if_neg fun hij => h hij.1]

/-- R47: with OPEN = 0 a CVi takes the value written. -/
theorem writeReg_cv_of_closed (s : State) (hopen : s.engine.isOpen = false) (i : Fin 8) (v : Word) :
    writeReg (.cv i) v s = .next (s.withEngine { s.engine with cv := s.engine.cv.setIfInBounds i v }) := by
  simp [writeReg, hopen]

/-- R45: a write that a register other than CMD takes leaves what every other register reads as. -/
theorem WriteEffect.readReg_of_ne {e e' : Engine} {r r' : Reg} {v : Word} (h : WriteEffect e r v e') (hcmd : r ≠ .cmd)
    (hne : r' ≠ r) : readReg e' r' = readReg e r' := by
  cases h with
  | cmd => exact absurd rfl hcmd
  | cv i =>
    cases r' with
    | cv j =>
      have hij : i.val ≠ j.val := fun h => hne (congrArg Reg.cv (Fin.ext h.symm))
      exact wordAt_set_of_ne _ _ hij
    | _ => rfl
  | m i =>
    cases r' with
    | m j =>
      have hij : i.val ≠ j.val := fun h => hne (congrArg Reg.m (Fin.ext h.symm))
      exact wordAt_set_of_ne _ _ hij
    | _ => rfl
  | _ => cases r' <;> simp [readReg, ctrlWord, statusWord, errWord, roundWord] at hne ⊢

/-- R45, R47, R48, R49, R29: CVi (with OPEN = 0), Mi, BLKCNT, OPX, OPY and OPZ take the value written and read as it. -/
theorem writeReg_takes (s : State) {r : Reg} (hr : ((∃ i, r = .cv i) ∧ s.engine.isOpen = false) ∨ (∃ i, r = .m i) ∨
    r = .blkcnt ∨ r = .opx ∨ r = .opy ∨ r = .opz) (v : Word) :
    r ≠ .cmd ∧ ∃ e, writeReg r v s = .next (s.withEngine e) ∧ WriteEffect s.engine r v e ∧ readReg e r = v := by
  obtain ⟨⟨i, rfl⟩, hopen⟩ | ⟨i, rfl⟩ | rfl | rfl | rfl | rfl := hr
  · exact ⟨nofun, _, writeReg_cv_of_closed s hopen i v, .cv i v hopen, by simp [readReg, wordAt_set]⟩
  · exact ⟨nofun, _, rfl, .m i v, by simp [readReg, wordAt_set]⟩
  · exact ⟨nofun, _, rfl, .blkcnt v, rfl⟩
  · exact ⟨nofun, _, rfl, .opx v, rfl⟩
  · exact ⟨nofun, _, rfl, .opy v, rfl⟩
  · exact ⟨nofun, _, rfl, .opz v, rfl⟩

/-- R148: with nothing pending the engine's turn changes nothing. -/
theorem engineTurn_of_pend_none {s : State} (h : s.engine.pend = none) : engineTurn s = .next s := by
  simp [engineTurn, h]

/-! ## What the packed registers hold -/

/-- R23. -/
theorem ctrlWord_eq (e : Engine) : ctrlWord e = if e.traceEn = true then 1 else 0 := by
  rw [ctrlWord]; cases e.traceEn <;> rfl

/-- R24. -/
theorem statusWord_eq (e : Engine) :
    statusWord e = (if e.busy = true then 1 else 0) + (if e.isOpen = true then 2 else 0) := by
  rw [statusWord]; cases e.busy <;> cases e.isOpen <;> rfl

/-- R26. -/
theorem errWord_eq (e : Engine) : errWord e = BitVec.ofNat 32 e.err.toNat :=
  (BitVec.ofNat_toNat 32 e.err).symm

/-- R28: seven bits hold every T up to 64. -/
theorem roundWord_eq {e : Engine} (h : e.t ≤ 64) : roundWord e = BitVec.ofNat 32 e.t := by
  apply BitVec.eq_of_toNat_eq
  simp only [roundWord, BitVec.toNat_setWidth, BitVec.toNat_ofNat]
  omega

end Sys2Proof.Machine
end

section
/-! SUPPORT. The register window's statements (20_memory.md): its map, its reads and its writes. -/

namespace Sys2Proof.Safety

open Sys2Proof.Machine

/-- Settles O42: `offsetOf` is 4 times `indexOf`, which the decoder inverts, and the reserved offsets are 4 times the
reserved indices. -/
theorem registerMapIsOneToOne : Obligations.RegisterMapIsOneToOne := by
  refine ⟨fun r => ⟨offsetOf_aligned r, regAt_offsetOf r⟩, fun off r => offsetOf_of_regAt, fun off ha => ?_⟩
  rw [regAt, regAtIndex_eq_none_iff]
  omega

/-- Settles O43: BASE is a multiple of the window's size, and the window's addresses are those from BASE on. -/
theorem windowDecodesItsAddresses : Obligations.WindowDecodesItsAddresses := by
  refine ⟨Nat.mul_mod_right _ _, windowOffset_base_add, fun addr h => if_neg ?_⟩
  have hsize : Config.windowBytes = 0x400 := rfl
  omega

/-- Settles O38: each offset is its register's, and each register reads as its own part of the engine. -/
theorem readValues : Obligations.ReadValues := by
  intro e
  have read (r : Reg) {x : Word} (h : readReg e r = x) : memRead e (offsetOf r) 4 = x := (memRead_offsetOf e r).trans h
  exact ⟨fun off n => memRead_of_not_legalShape e, read .ctrl (ctrlWord_eq e), read .status (statusWord_eq e),
    read .err (errWord_eq e), read .cmd rfl, fun ht => read .round (roundWord_eq ht), read .blkcnt rfl,
    fun i hi => read (.cv ⟨i, hi⟩) (wordAt_of_lt _ hi),
    read (.work 0) rfl, read (.work 1) rfl, read (.work 2) rfl, read (.work 3) rfl, read (.work 4) rfl,
    read (.work 5) rfl, read (.work 6) rfl, read (.work 7) rfl,
    fun i hi => read (.m ⟨i, hi⟩) (wordAt_of_lt _ hi),
    read .opx rfl, read .opy rfl, read .opz rfl, read .pres rfl,
    fun i hi => read (.w ⟨i, hi⟩) (wordAt_of_lt _ hi),
    fun i hi => read (.k ⟨i, hi⟩) (wordAt_of_lt _ hi),
    fun i hi => read (.iv ⟨i, hi⟩) (wordAt_of_lt _ hi),
    memRead_reserved e⟩

/-- Settles O39: the agenda's head is the read, which only lengthens the host's list. -/
theorem readChangesNoEngineState : Obligations.ReadChangesNoEngineState :=
  fun _ _ _ _ ha => step_cons ha

/-- Settles O40: each offset is its register's, whose write has the listed effect. -/
theorem writeEffects : Obligations.WriteEffects := by
  intro s v rest hbusy after
  refine ⟨step_write .ctrl hbusy, step_write .err hbusy, step_write .blkcnt hbusy,
    fun i hi hopen ha => ?_, fun i hi => step_write (.m ⟨i, hi⟩) hbusy,
    step_write .opx hbusy, step_write .opy hbusy, step_write .opz hbusy⟩
  exact (step_write (.cv ⟨i, hi⟩) hbusy ha).trans (writeReg_cv_of_closed (s.withAgenda rest) hopen ⟨i, hi⟩ v)

/-- Settles O41: the register takes the value, and no other register's reading depends on it. -/
theorem writeTouchesOneRegister : Obligations.WriteTouchesOneRegister := by
  intro s u r v hr hw h
  obtain ⟨rest, hstep⟩ := step_of_hostWrites hw
  obtain ⟨hcmd, e, htakes, heff, hread⟩ := writeReg_takes (s.withAgenda rest) hr v
  rw [hstep, htakes] at h
  cases h
  simp only [memRead_offsetOf]
  exact ⟨hread, fun r' => heff.readReg_of_ne hcmd⟩

/-- Settles O8: the agenda's empty or engine-headed cases, and the idle engine's turn. -/
theorem engineMovesWhenScheduled : Obligations.EngineMovesWhenScheduled := fun _ =>
  ⟨step_nil, fun _ => step_cons, fun ha hp => (step_nil ha).trans (engineTurn_of_pend_none hp),
    fun _ ha hp => (step_cons ha).trans (engineTurn_of_pend_none hp)⟩

end Sys2Proof.Safety
end

section
/-! SUPPORT. A message word whose round has run plays no part in what the engine still does for the open block
(20_memory.md R48; 41_schedule.md R97): a late write of M[i] commutes with micro-steps and with engine turns. -/

namespace Sys2Proof.Machine

open Sys2Proof.Safety

/-- R48: the state with `v` in M[i], whatever else is going on. -/
def setMessage (i : Nat) (v : Word) (s : State) : State :=
  s.withEngine { s.engine with m := s.engine.m.setIfInBounds i v }

/-- R97: schedule word `t` reads no M[i] with `i < t`. -/
theorem scheduleWord_setMessage_of_lt (m : Vector Word 16) (w : Vector Word 64) (v : Word) {i t : Nat} (h : i < t) :
    scheduleWord (m.setIfInBounds i v) w t = scheduleWord m w t := by
  unfold scheduleWord
  rw [wordAt_set_of_ne m v (by omega)]

/-- R105, R111: a round at T > i is the same round with another M[i], record included. -/
theorem roundStep_setMessage (i : Nat) (v : Word) {s : State} (h : i < s.engine.t) :
    roundStep (setMessage i v s) = setMessage i v (roundStep s) := by
  have hword := scheduleWord_setMessage_of_lt s.engine.m s.engine.w v h
  apply state_ext
  · simp [setMessage, roundStepEngine, hword]
  · simp [setMessage]
  · simp [setMessage]
  · simp [setMessage, roundStep_trace, roundStepEngine, hword]

/-- A micro-step at T > i commutes with a write of M[i]: only a round reads M. -/
theorem microStep_setMessage (i : Nat) (v : Word) {m : MicroStep} {s u : State} (ht : i < s.engine.t)
    (h : microStep m s = .next u) : microStep m (setMessage i v s) = .next (setMessage i v u) := by
  cases m with
  | round =>
    simp only [microStep, microRound] at h ⊢
    split_ifs at h with hlt
    cases h
    exact (if_pos hlt).trans (congrArg _ (roundStep_setMessage i v ht))
  | _ => cases h; rfl

theorem retire_setMessage (op : Instr) (later : List MicroStep) (i : Nat) (v : Word) (s : State) :
    retire op later (setMessage i v s) = setMessage i v (retire op later s) := by
  cases later <;> rfl

/-- An engine turn at T > i commutes with a write of M[i]. -/
theorem engineTurn_setMessage (i : Nat) (v : Word) {s u : State} (ht : i < s.engine.t) (h : engineTurn s = .next u) :
    engineTurn (setMessage i v s) = .next (setMessage i v u) := by
  obtain ⟨hp, rfl⟩ | ⟨op, m, later, w, hp, hm, rfl⟩ := engineTurn_next h
  · exact engineTurn_of_pend_none hp
  · rw [← retire_setMessage]
    exact engineTurn_of_pend hp (microStep_setMessage i v ht hm)

/-- No BEGIN micro-step is pending, so the open block stays the open block. -/
def NoBeginPending (e : Engine) : Prop := ∀ p, e.pend = some p → MicroStep.begin ∉ p.remaining

/-- R19: only BEGIN sets T back. -/
theorem MicroEffect.t_le {e e' : Engine} {m : MicroStep} (h : MicroEffect e m e') (hm : m ≠ .begin) : e.t ≤ e'.t := by
  cases h with
  | begin => exact absurd rfl hm
  | round => exact Nat.le_succ _
  | _ => exact le_refl _

/-- With no BEGIN pending an engine turn does not lower T and leaves no BEGIN pending. -/
theorem NoBeginPending.turn {s u : State} (hs : NoBeginPending s.engine) (h : engineTurn s = .next u) :
    s.engine.t ≤ u.engine.t ∧ NoBeginPending u.engine := by
  obtain ⟨-, rfl⟩ | ⟨op, m, later, w, hp, hm, rfl⟩ := engineTurn_next h
  · exact ⟨le_refl _, hs⟩
  · obtain ⟨hne, hlater⟩ := List.ne_and_not_mem_of_not_mem_cons (hs _ hp)
    rw [retire_engine]
    refine ⟨(microStep_effect hm).t_le hne.symm, fun p hq => ?_⟩
    split_ifs at hq
    cases hq
    exact hlater

end Sys2Proof.Machine

namespace Sys2Proof.Safety

open Sys2Proof.Machine

/-- Settles O35, by induction on the number of turns: each turn commutes with the late write and keeps T above `i` and
BEGIN out of PEND. -/
theorem lateMessageWriteHasNoEffect : Obligations.LateMessageWriteHasNoEffect := by
  intro k i v s u ht hs h
  change engineTurns k (setMessage i v s) = .next (setMessage i v u)
  induction k generalizing s with
  | zero => cases h; rfl
  | succ k ih =>
    rw [engineTurns] at h
    split at h
    · rename_i w hturn
      obtain ⟨hle, hw⟩ := NoBeginPending.turn hs hturn
      rw [engineTurns_succ k (engineTurn_setMessage i v ht hturn)]
      exact ih w (by omega) hw h
    · cases h
    · cases h

end Sys2Proof.Safety
end

section
/-! SUPPORT. The rows of the opcode table (30_encoding.md R63 to R68). A word has three fields: OPC, the operand of its
row and the row's reserved bits. The decoder and the encoder are each said once in terms of them. -/

namespace Sys2Proof

/-- R64, R65: how many bits, from bit 8 on, hold the operand in a command's row. -/
def operandBits : Instr → Nat
  | .round _ => 7
  | .rotr _ => 5
  | .nop | .init | .begin | .finish | .compress | .abort
  | .ch | .maj | .bsig0 | .bsig1 | .ssig0 | .ssig1 => 0

/-- R63: the command of the same row with the operand `n`. -/
def withOperand (n : Nat) : Instr → Instr
  | .round _ => .round n
  | .rotr _ => .rotr n
  | i => i

/-- R64, R65: the operand field of `i`'s row. -/
def operandField (i : Instr) (v : Word) : BitVec (operandBits i) := v.extractLsb' 8 (operandBits i)

/-- R66: the reserved bits of `i`'s row. -/
def reservedField (i : Instr) (v : Word) : BitVec (24 - operandBits i) :=
  v.extractLsb' (8 + operandBits i) (24 - operandBits i)

/-! ## Commands and rows -/

@[simp] theorem opcodeOf_withOperand (n : Nat) (i : Instr) : opcodeOf (withOperand n i) = opcodeOf i := by
  cases i <;> rfl

@[simp] theorem operandBits_withOperand (n : Nat) (i : Instr) : operandBits (withOperand n i) = operandBits i := by
  cases i <;> rfl

@[simp] theorem withOperand_operandOf (i : Instr) : withOperand (operandOf i) i = i := by
  cases i <;> rfl

/-- The operand 0 is the only one of a row without an operand field. -/
theorem operandOf_withOperand {n : Nat} {i : Instr} (h : n < 2 ^ operandBits i) : operandOf (withOperand n i) = n := by
  cases i with
  | round | rotr => rfl
  | _ => exact (Nat.lt_one_iff.mp h).symm

theorem operandBits_le (i : Instr) : operandBits i ≤ 7 := by
  cases i <;> simp [operandBits]

/-- R64, R65: a command is well formed when its operand fits its row's field. -/
theorem wellFormed_iff {i : Instr} : i.WellFormed ↔ operandOf i < 2 ^ operandBits i := by
  cases i with
  | round n | rotr n =>
    simp only [Instr.WellFormed, Instr.wellFormed, operandOf, operandBits, decide_eq_true_eq]
    omega
  | _ => decide

/-- R63, R67: the OPC values that have a row. -/
theorem exists_opcodeOf_eq_iff {b : BitVec 8} :
    (∃ i, opcodeOf i = b) ↔ b.toNat ≤ 0x06 ∨ (0x10 ≤ b.toNat ∧ b.toNat ≤ 0x16) := by
  constructor
  · rintro ⟨i, rfl⟩
    cases i <;> dsimp only [opcodeOf] <;> decide
  · intro h
    have table : ∀ b : BitVec 8, b.toNat ≤ 0x06 ∨ (0x10 ≤ b.toNat ∧ b.toNat ≤ 0x16) →
        ∃ i ∈ [Instr.nop, .init, .begin, .round 0, .finish, .compress, .abort, .rotr 0, .ch, .maj, .bsig0, .bsig1,
          .ssig0, .ssig1], opcodeOf i = b := by decide
    obtain ⟨i, -, hi⟩ := table b h
    exact ⟨i, hi⟩

/-- R63: the rows with an operand are 0x03 and 0x10. -/
theorem operandBits_eq_zero {i : Instr} (hround : (opcodeOf i).toNat ≠ 0x03) (hrotr : (opcodeOf i).toNat ≠ 0x10) :
    operandBits i = 0 := by
  cases i with
  | round => exact absurd rfl hround
  | rotr => exact absurd rfl hrotr
  | _ => rfl

/-! ## The fields as numbers -/

theorem toNat_opcodeField (v : Word) : (opcodeField v).toNat = v.toNat % 2 ^ 8 := by
  simp [opcodeField]

theorem opcodeField_eq_iff {v : Word} {b : BitVec 8} : opcodeField v = b ↔ v.toNat % 2 ^ 8 = b.toNat := by
  rw [← toNat_opcodeField, BitVec.toNat_inj]

/-- R63, R67: the words whose OPC has a row. -/
theorem exists_row_iff {v : Word} : (∃ i, opcodeOf i = opcodeField v) ↔
    v.toNat % 2 ^ 8 ≤ 0x06 ∨ (0x10 ≤ v.toNat % 2 ^ 8 ∧ v.toNat % 2 ^ 8 ≤ 0x16) := by
  rw [exists_opcodeOf_eq_iff, toNat_opcodeField]

theorem toNat_operandField (i : Instr) (v : Word) :
    (operandField i v).toNat = v.toNat / 2 ^ 8 % 2 ^ operandBits i := by
  rw [operandField, BitVec.extractLsb'_toNat, Nat.shiftRight_eq_div_pow]

/-- R66: the reserved bits are clear when nothing stands above the operand. -/
theorem reservedField_eq_zero_iff {i : Instr} {v : Word} :
    reservedField i v = 0#_ ↔ v.toNat / 2 ^ 8 < 2 ^ operandBits i := by
  have hwidth : 8 + operandBits i + (24 - operandBits i) = 32 := by have := operandBits_le i; omega
  have hlt : v.toNat / 2 ^ (8 + operandBits i) < 2 ^ (24 - operandBits i) := by
    rw [Nat.div_lt_iff_lt_mul (by positivity), ← pow_add, Nat.add_comm, hwidth]
    exact v.isLt
  rw [← BitVec.toNat_inj, BitVec.toNat_ofNat, Nat.zero_mod, reservedField, BitVec.extractLsb'_toNat,
    Nat.shiftRight_eq_div_pow, Nat.mod_eq_of_lt hlt, pow_add, ← Nat.div_div_eq_div_mul,
    Nat.div_eq_zero_iff_lt (by positivity)]

/-- R68: the encoder puts the operand above the OPC. -/
theorem toNat_encode {i : Instr} (h : i.WellFormed) : (encode i).toNat = 2 ^ 8 * operandOf i + (opcodeOf i).toNat := by
  have hop : operandOf i < 2 ^ 7 :=
    (wellFormed_iff.mp h).trans_le (Nat.pow_le_pow_right (by decide) (operandBits_le i))
  have hopc : (opcodeOf i).toNat < 2 ^ 8 := (opcodeOf i).isLt
  rw [Nat.two_pow_add_eq_or_of_lt hopc, Nat.or_comm, encode, BitVec.toNat_or, BitVec.toNat_setWidth,
    BitVec.toNat_shiftLeft, BitVec.toNat_ofNat, Nat.shiftLeft_eq, Nat.mod_eq_of_lt (a := (opcodeOf i).toNat) (by omega),
    Nat.mod_eq_of_lt (a := operandOf i) (by omega), Nat.mod_eq_of_lt (by omega), Nat.mul_comm]

/-! ## The decoder, once per row -/

/-- R68: a word whose OPC is that of `i`'s row is legal when the row's reserved bits are 0. -/
theorem decode_of_opcode {i : Instr} {v : Word} (h : opcodeField v = opcodeOf i) :
    decode v = whenReservedClear (reservedField i v) (withOperand (operandField i v).toNat i) := by
  unfold decode
  rw [h]
  cases i <;> rfl

/-- R67: a word whose OPC has no row; each OPC that the decoder names has one. -/
theorem decode_of_no_row {v : Word} (h : ¬ ∃ i, opcodeOf i = opcodeField v) :
    decode v = .error .undefinedOpcode := by
  unfold decode
  split
  case h_15 => rfl
  all_goals
    rename_i hopc
    exact absurd (exists_opcodeOf_eq_iff.mpr (by rw [hopc]; decide)) h

/-- R66: a word with a reserved bit set: more stands above OPC than the operand field holds. -/
theorem decode_of_reserved_set {i : Instr} {v : Word} (h : opcodeField v = opcodeOf i)
    (hr : 2 ^ operandBits i ≤ v.toNat / 2 ^ 8) : decode v = .error .reservedBitSet := by
  rw [decode_of_opcode h, whenReservedClear, if_neg (reservedField_eq_zero_iff.not.mpr hr.not_gt)]

/-- R68: a word whose reserved bits are clear. -/
theorem decode_of_reserved_clear {i : Instr} {v : Word} (h : opcodeField v = opcodeOf i)
    (hr : reservedField i v = 0#_) : decode v = .ok (withOperand (v.toNat / 2 ^ 8) i) := by
  rw [decode_of_opcode h, whenReservedClear, if_pos hr, toNat_operandField,
    Nat.mod_eq_of_lt (reservedField_eq_zero_iff.mp hr)]

/-- A decoded command is that of the word's row, with all that stands above OPC as its operand. -/
theorem decode_eq_ok {v : Word} {i : Instr} (h : decode v = .ok i) :
    opcodeOf i = opcodeField v ∧ operandOf i = v.toNat / 2 ^ 8 ∧ i.WellFormed := by
  by_cases hrow : ∃ j, opcodeOf j = opcodeField v
  · obtain ⟨j, hj⟩ := hrow
    by_cases hr : reservedField j v = 0#_
    · have hlt := reservedField_eq_zero_iff.mp hr
      rw [decode_of_reserved_clear hj.symm hr] at h
      cases h
      have hop := operandOf_withOperand hlt
      refine ⟨by simp [hj], hop, ?_⟩
      rwa [wellFormed_iff, hop, operandBits_withOperand]
    · rw [decode_of_opcode hj.symm, whenReservedClear, if_neg hr] at h
      cases h
  · rw [decode_of_no_row hrow] at h
    cases h

/-- R68: decoding inverts encoding. -/
theorem decode_encode {i : Instr} (h : i.WellFormed) : decode (encode i) = .ok i := by
  have henc := toNat_encode h
  have hopc : (opcodeOf i).toNat < 2 ^ 8 := (opcodeOf i).isLt
  have hop : (encode i).toNat / 2 ^ 8 = operandOf i := by omega
  have hrow : opcodeField (encode i) = opcodeOf i := opcodeField_eq_iff.mpr (by omega)
  have hr : reservedField i (encode i) = 0#_ := reservedField_eq_zero_iff.mpr (hop ▸ wellFormed_iff.mp h)
  rw [decode_of_reserved_clear hrow hr, hop, withOperand_operandOf]

/-- R68: encoding inverts decoding. -/
theorem encode_of_decode {v : Word} {i : Instr} (h : decode v = .ok i) : encode i = v := by
  obtain ⟨hopc, hop, hwf⟩ := decode_eq_ok h
  apply BitVec.eq_of_toNat_eq
  rw [toNat_encode hwf, hopc, toNat_opcodeField, hop, Nat.div_add_mod]

/-- R68: the legal words are the encodings of the well-formed commands. -/
theorem decode_eq_ok_iff {v : Word} {i : Instr} : decode v = .ok i ↔ i.WellFormed ∧ encode i = v := by
  constructor
  · intro h
    obtain ⟨-, -, hwf⟩ := decode_eq_ok h
    exact ⟨hwf, encode_of_decode h⟩
  · rintro ⟨hwf, rfl⟩
    exact decode_encode hwf

/-- The table's numbering adds nothing to a 32-bit word. -/
theorem decodeTableWord_of_decode {v : Word} {i : Instr} (h : decode v = .ok i) :
    decodeTableWord 32 v.toNat = some i := by
  rw [decodeTableWord, Nat.mod_eq_of_lt v.isLt, if_pos v.isLt, BitVec.ofNat_toNat, BitVec.setWidth_eq, h]

/-! ## Mask and match (R63) -/

/-- R63: every well-formed command's word matches its row. -/
theorem encode_matchesRow : ∀ i, Laws.EncodeMatchesRow.Statement i
  | .nop => Laws.EncodeMatchesRow.nop
  | .init => Laws.EncodeMatchesRow.init
  | .begin => Laws.EncodeMatchesRow.begin
  | .round n => Laws.EncodeMatchesRow.round n
  | .finish => Laws.EncodeMatchesRow.finish
  | .compress => Laws.EncodeMatchesRow.compress
  | .abort => Laws.EncodeMatchesRow.abort
  | .rotr n => Laws.EncodeMatchesRow.rotr n
  | .ch => Laws.EncodeMatchesRow.ch
  | .maj => Laws.EncodeMatchesRow.maj
  | .bsig0 => Laws.EncodeMatchesRow.bsig0
  | .bsig1 => Laws.EncodeMatchesRow.bsig1
  | .ssig0 => Laws.EncodeMatchesRow.ssig0
  | .ssig1 => Laws.EncodeMatchesRow.ssig1

/-- The mask keeps the whole OPC. -/
theorem opcodeField_and_rowMask (i : Instr) (v : Word) : opcodeField (v &&& rowMask i) = opcodeField v := by
  have hmask : (rowMask i).extractLsb' 0 8 = BitVec.allOnes 8 := by
    cases i <;> dsimp only [rowMask] <;> decide
  rw [opcodeField, BitVec.extractLsb'_and, hmask, BitVec.and_allOnes, opcodeField]

/-- The mask keeps every reserved bit. -/
theorem reservedField_and_rowMask (i : Instr) (v : Word) : reservedField i (v &&& rowMask i) = reservedField i v := by
  have hmask : reservedField i (rowMask i) = BitVec.allOnes _ := by
    cases i <;> dsimp only [reservedField, rowMask, operandBits] <;> decide
  rw [reservedField, BitVec.extractLsb'_and, ← reservedField, ← reservedField, hmask, BitVec.and_allOnes]

theorem opcodeField_rowWord (i : Instr) : opcodeField (rowWord i) = opcodeOf i := by
  cases i <;> rfl

theorem reservedField_rowWord (i : Instr) : reservedField i (rowWord i) = 0#_ := by
  cases i <;> dsimp only [reservedField, rowWord, opcodeOf, operandBits] <;> decide

/-- R63: a word that selects a row has its OPC, and the row's reserved bits clear. -/
theorem fields_of_selects {v : Word} {i : Instr} (h : v &&& rowMask i = rowWord i) :
    opcodeField v = opcodeOf i ∧ reservedField i v = 0#_ := by
  rw [← opcodeField_and_rowMask i, ← reservedField_and_rowMask i, h]
  exact ⟨opcodeField_rowWord i, reservedField_rowWord i⟩

end Sys2Proof
end

section
/-! SUPPORT. The encoding's statements (30_encoding.md). -/

namespace Sys2Proof.Safety

/-- Settles O1: the encoded word's fields are the command's OPC and operand, with no reserved bit set. -/
theorem decodeInvertsEncode : Obligations.DecodeInvertsEncode := fun _ h =>
  ⟨decode_encode h, decodeTableWord_of_decode (decode_encode h)⟩

/-- Settles O2: the legal words are the encodings of the well-formed commands. -/
theorem encodeInvertsDecode : Obligations.EncodeInvertsDecode := fun _ _ => decode_eq_ok_iff.mp

/-- Settles O3: a legal word is its command's encoding, which matches the row; the mask keeps OPC and the reserved bits,
which settle what the word decodes to and which row it selects. -/
theorem decodeSelectsTheRow : Obligations.DecodeSelectsTheRow := by
  refine ⟨fun v i h => ?_, fun v i h => ?_, fun v i j hi hj => ?_⟩
  · obtain ⟨hwf, rfl⟩ := decode_eq_ok_iff.mp h
    exact encode_matchesRow i hwf
  · obtain ⟨hopc, hr⟩ := fields_of_selects h
    exact ⟨_, decode_of_reserved_clear hopc hr, opcodeOf_withOperand _ i⟩
  · obtain ⟨hopci, -⟩ := fields_of_selects hi
    obtain ⟨hopcj, -⟩ := fields_of_selects hj
    exact hopci.symm.trans hopcj

/-- Settles O4: the OPC values without a row, then the reserved bits of ROUND's row, of ROTR's and of the rows without
an operand; NOP's only word is its encoding. -/
theorem illegalWordsAreRejected : Obligations.IllegalWordsAreRejected := by
  intro v
  refine ⟨fun h => ?_, fun hopc hr => ?_, fun hopc hr => ?_, fun hopc hr => ?_, ?_⟩
  · exact decode_of_no_row (exists_row_iff.not.mpr (by omega))
  · exact decode_of_reserved_set (i := .round 0) (opcodeField_eq_iff.mpr hopc) (by simp only [operandBits]; omega)
  · exact decode_of_reserved_set (i := .rotr 0) (opcodeField_eq_iff.mpr hopc) (by simp only [operandBits]; omega)
  · obtain ⟨i, hi⟩ : ∃ i, opcodeOf i = opcodeField v := exists_row_iff.mpr (by omega)
    have hnum : (opcodeOf i).toNat = v.toNat % 2 ^ 8 := hi ▸ toNat_opcodeField v
    have hbits : operandBits i = 0 := operandBits_eq_zero (by omega) (by omega)
    exact decode_of_reserved_set hi.symm (by rw [hbits]; omega)
  · have hnop : encode .nop = 0 := by decide
    rw [decode_eq_ok_iff, hnop, eq_comm (a := v)]
    exact and_iff_right rfl

/-- Settles O5: the legal words are encodings of well-formed commands, three others have a reserved bit set, and 0x07
has no row. -/
theorem writtenWordsDecode : Obligations.WrittenWordsDecode := by
  have legal {v : Word} {i : Instr} (h : i.WellFormed ∧ encode i = v) : decode v = .ok i := decode_eq_ok_iff.mpr h
  exact ⟨legal (by decide), legal (by decide), legal (by decide), legal (by decide), legal (by decide),
    legal (by decide), legal (by decide),
    decode_of_reserved_set (i := .round 0) (by decide) (by decide),
    decode_of_reserved_set (i := .rotr 0) (by decide) (by decide),
    decode_of_reserved_set (i := .init) (by decide) (by decide),
    decode_of_no_row (exists_row_iff.not.mpr (by decide))⟩

end Sys2Proof.Safety
end

section
/-! SUPPORT. The bitwise functions bit by bit (40_primitives.md R77 to R84), and their linearity over GF(2) (R95). -/

namespace Sys2Proof.Machine

/-! ## Rotation (R77) -/

/-- R77: below 32 the amount needs no reduction. -/
theorem rotr_of_lt (x : Word) {n : Nat} (h : n < 32) : rotr x n = (x >>> n) ||| (x <<< (32 - n)) := by
  rw [rotr, Nat.mod_eq_of_lt h]

/-- R77: `rotr` is the library's rotation. -/
theorem rotr_eq_rotateRight (x : Word) (n : Nat) : rotr x n = x.rotateRight n := rfl

/-- R77: ROTR moves bit (i + n) mod 32 to bit i. -/
theorem getLsbD_rotr (x : Word) (n : Nat) {i : Nat} (hi : i < 32) :
    (rotr x n).getLsbD i = x.getLsbD ((i + n) % 32) := by
  rw [rotr_eq_rotateRight, BitVec.getLsbD_rotateRight]
  by_cases h : i < 32 - n % 32
  · have hindex : (i + n) % 32 = n % 32 + i := by omega
    simp [h, hindex]
  · have hindex : (i + n) % 32 = i - (32 - n % 32) := by omega
    simp [h, hi, hindex]

/-- Rotations add up. -/
theorem rotr_rotr (x : Word) (m n : Nat) : rotr (rotr x m) n = rotr x (m + n) := by
  apply BitVec.eq_of_getLsbD_eq
  intro i hi
  have hindex : ((i + n) % 32 + m) % 32 = (i + (m + n)) % 32 := by omega
  rw [getLsbD_rotr _ _ hi, getLsbD_rotr _ _ (Nat.mod_lt _ (by decide)), getLsbD_rotr _ _ hi, hindex]

/-- A whole number of turns moves nothing. -/
theorem rotr_of_dvd (x : Word) {n : Nat} (h : 32 ∣ n) : rotr x n = x := by
  apply BitVec.eq_of_getLsbD_eq
  intro i hi
  have hindex : (i + n) % 32 = i := by omega
  rw [getLsbD_rotr _ _ hi, hindex]

/-- R77: a rotation is undone by the rest of the turn. -/
theorem rotr_bijective (n : Nat) : Function.Bijective (fun x : Word => rotr x n) := by
  refine Function.bijective_iff_has_inverse.mpr ⟨fun x => rotr x (32 - n % 32), fun x => ?_, fun x => ?_⟩ <;>
  · simp only [rotr_rotr]
    exact rotr_of_dvd x (by omega)

/-- R77: a word of equal bits is its own rotation. -/
theorem rotr_of_bits_eq {x : Word} {b : Bool} (h : ∀ i < 32, x.getLsbD i = b) (n : Nat) : rotr x n = x := by
  apply BitVec.eq_of_getLsbD_eq
  intro i hi
  rw [getLsbD_rotr _ _ hi, h _ (Nat.mod_lt _ (by decide)), h i hi]

/-! ## Choice and majority (R79, R80) -/

/-- R79: each bit of CH is chosen by the bit of the first operand. -/
theorem getLsbD_chFn (x y z : Word) {i : Nat} (hi : i < 32) :
    (chFn x y z).getLsbD i = if x.getLsbD i then y.getLsbD i else z.getLsbD i := by
  simp only [chFn, BitVec.getLsbD_xor, BitVec.getLsbD_and, BitVec.getLsbD_not, hi]
  cases x.getLsbD i <;> simp

/-- R80: each bit of MAJ is 1 when at least two of the three are. -/
theorem getLsbD_majFn (x y z : Word) (i : Nat) : (majFn x y z).getLsbD i =
    decide (2 ≤ (x.getLsbD i).toNat + (y.getLsbD i).toNat + (z.getLsbD i).toNat) := by
  simp only [majFn, BitVec.getLsbD_xor, BitVec.getLsbD_and]
  cases x.getLsbD i <;> cases y.getLsbD i <;> cases z.getLsbD i <;> rfl

theorem chFn_self (x y : Word) : chFn x y y = y := by
  apply BitVec.eq_of_getLsbD_eq
  intro i hi
  rw [getLsbD_chFn _ _ _ hi, ite_self]

/-- R80: counting the bits that are 1 takes no account of their order. -/
theorem majFn_swap_left (x y z : Word) : majFn x y z = majFn y x z := by
  apply BitVec.eq_of_getLsbD_eq
  intro i _
  rw [getLsbD_majFn, getLsbD_majFn, Nat.add_comm (x.getLsbD i).toNat]

theorem majFn_swap_right (x y z : Word) : majFn x y z = majFn x z y := by
  apply BitVec.eq_of_getLsbD_eq
  intro i _
  rw [getLsbD_majFn, getLsbD_majFn, Nat.add_right_comm]

/-- R80: two equal operands are the majority. -/
theorem majFn_self (x z : Word) : majFn x x z = x := by
  apply BitVec.eq_of_getLsbD_eq
  intro i _
  rw [getLsbD_majFn]
  cases x.getLsbD i <;> cases z.getLsbD i <;> rfl

/-- R80: between two opposite operands the third decides. -/
theorem majFn_not (x z : Word) : majFn x (~~~x) z = z := by
  apply BitVec.eq_of_getLsbD_eq
  intro i hi
  rw [getLsbD_majFn, BitVec.getLsbD_not, decide_eq_true hi]
  cases x.getLsbD i <;> cases z.getLsbD i <;> rfl

/-! ## Linearity over GF(2) (R95) -/

/-- A function of words that is linear over GF(2). -/
def XorLinear (f : Word → Word) : Prop := ∀ x y, f (x ^^^ y) = f x ^^^ f y

theorem XorLinear.zero {f : Word → Word} (hf : XorLinear f) : f 0 = 0 := by
  have h : f 0 = f 0 ^^^ f 0 := hf 0 0
  rwa [BitVec.xor_self] at h

theorem XorLinear.xor {f g : Word → Word} (hf : XorLinear f) (hg : XorLinear g) : XorLinear fun x => f x ^^^ g x := by
  intro x y
  simp only [hf x y, hg x y]
  ac_rfl

theorem rotr_linear (n : Nat) : XorLinear fun x => rotr x n := by
  intro x y
  apply BitVec.eq_of_getLsbD_eq
  intro i hi
  simp only [BitVec.getLsbD_xor, getLsbD_rotr _ _ hi]

theorem shr_linear (n : Nat) : XorLinear fun x => shr x n :=
  fun x y => BitVec.ushiftRight_xor_distrib x y n

theorem bsig0Fn_linear : XorLinear bsig0Fn := ((rotr_linear 2).xor (rotr_linear 13)).xor (rotr_linear 22)
theorem bsig1Fn_linear : XorLinear bsig1Fn := ((rotr_linear 6).xor (rotr_linear 11)).xor (rotr_linear 25)
theorem ssig0Fn_linear : XorLinear ssig0Fn := ((rotr_linear 7).xor (rotr_linear 18)).xor (shr_linear 3)
theorem ssig1Fn_linear : XorLinear ssig1Fn := ((rotr_linear 17).xor (rotr_linear 19)).xor (shr_linear 10)

/-! ## Inverses (R95) -/

/-- The low `k + 1` bits of a word are its low `k` bits with bit `k` added. -/
theorem lowBits_succ (x : Word) (k : Nat) :
    (x.setWidth (k + 1)).setWidth 32 = (x.setWidth k).setWidth 32 ^^^ (x &&& BitVec.twoPow 32 k) := by
  apply BitVec.eq_of_getLsbD_eq
  intro i hi
  simp only [BitVec.getLsbD_setWidth, BitVec.getLsbD_xor, BitVec.getLsbD_and, BitVec.getLsbD_twoPow]
  grind

/-- The one-bit words span all words. -/
theorem word_induction {P : Word → Prop} (zero : P 0) (xor : ∀ x y, P x → P y → P (x ^^^ y))
    (bit : ∀ i < 32, P (BitVec.twoPow 32 i)) (x : Word) : P x := by
  have low : ∀ k ≤ 32, P ((x.setWidth k).setWidth 32) := by
    intro k hk
    induction k with
    | zero =>
      have hempty : x.setWidth 0 = 0#0 := BitVec.eq_nil _
      simpa [hempty] using zero
    | succ k ih =>
      rw [lowBits_succ, BitVec.and_twoPow]
      refine xor _ _ (ih (by omega)) ?_
      split
      · exact bit k hk
      · exact zero
  simpa using low 32 le_rfl

/-- A linear function that reaches every one-bit word, at the words that `inv` gives, reaches every
word, and so each word once. -/
theorem XorLinear.bijective {f : Word → Word} (hf : XorLinear f) (inv : Nat → Word)
    (h : ∀ i < 32, f (inv i) = BitVec.twoPow 32 i) : Function.Bijective f := by
  have hsurj : Function.Surjective f := by
    refine word_induction ⟨0, hf.zero⟩ ?_ fun i hi => ⟨inv i, h i hi⟩
    rintro _ _ ⟨a, rfl⟩ ⟨b, rfl⟩
    exact ⟨a ^^^ b, hf a b⟩
  exact hsurj.bijective_of_finite

/-- The xor of three rotations, the form of BSIG0 and BSIG1 (R81, R82). -/
def rotr3 (a b c : Nat) (x : Word) : Word := rotr x a ^^^ rotr x b ^^^ rotr x c

/-- Squaring over GF(2): every mixed rotation comes twice and cancels. -/
theorem rotr3_rotr3 (a b c : Nat) (x : Word) : rotr3 a b c (rotr3 a b c x) = rotr3 (2 * a) (2 * b) (2 * c) x := by
  have dist (n : Nat) (x y : Word) : rotr (x ^^^ y) n = rotr x n ^^^ rotr y n := rotr_linear n x y
  have swap (x y z : Word) : x ^^^ (y ^^^ z) = y ^^^ (x ^^^ z) := by ac_rfl
  simp only [rotr3, dist, rotr_rotr, Nat.two_mul, Nat.add_comm b a, Nat.add_comm c a, Nat.add_comm c b]
  simp [BitVec.xor_assoc, swap]

theorem rotr3_bijective_of_double {a b c : Nat} (h : Function.Bijective (rotr3 (2 * a) (2 * b) (2 * c))) :
    Function.Bijective (rotr3 a b c) := by
  have hsquare : rotr3 a b c ∘ rotr3 a b c = rotr3 (2 * a) (2 * b) (2 * c) := funext (rotr3_rotr3 a b c)
  rw [← hsquare] at h
  exact ⟨h.injective.of_comp, h.surjective.of_comp⟩

theorem rotr3_bijective_of_two_pow (k : Nat) {a b c : Nat}
    (h : Function.Bijective (rotr3 (2 ^ k * a) (2 ^ k * b) (2 ^ k * c))) : Function.Bijective (rotr3 a b c) := by
  induction k with
  | zero => simpa using h
  | succ k ih => exact ih (rotr3_bijective_of_double (by simpa only [pow_succ', Nat.mul_assoc] using h))

/-- R95: squared five times, three rotations are whole turns, whose xor is the word itself. -/
theorem rotr3_bijective (a b c : Nat) : Function.Bijective (rotr3 a b c) := by
  have hturns : rotr3 (2 ^ 5 * a) (2 ^ 5 * b) (2 ^ 5 * c) = id := by
    funext x
    simp [rotr3, rotr_of_dvd]
  exact rotr3_bijective_of_two_pow 5 (hturns ▸ Function.bijective_id)

theorem bsig0Fn_bijective : Function.Bijective bsig0Fn := rotr3_bijective 2 13 22
theorem bsig1Fn_bijective : Function.Bijective bsig1Fn := rotr3_bijective 6 11 25

/-- R95: what SSIG0 takes to the one-bit words, from bit 0 on. -/
def ssig0Preimages : Vector Word 32 := #v[
  0x185744E9, 0x30AE89D2, 0x615D13A4, 0xDAED63A1, 0x9CD03A8E, 0x08FDCC39, 0x11FB9872, 0x23F730E4,
  0x5FB92521, 0xBF724A42, 0x57EE6948, 0xAFDCD290, 0x76B358EC, 0xF531F531, 0xC36917AE, 0xB78F9679,
  0x4615D13E, 0x947CE695, 0x19A4740F, 0x2B1FACF7, 0x4E681D07, 0x84877EE7, 0x385344EB, 0x70A689D6,
  0xF91A5745, 0xC36917AF, 0xB78F967B, 0x4615D13A, 0x8C2BA274, 0x290AFDCD, 0x4A42BF73, 0x94857EE6]

/-- R95: what SSIG1 takes to the one-bit words, from bit 0 on. -/
def ssig1Preimages : Vector Word 32 := #v[
  0x2CCFFFED, 0x75500037, 0xEAA0006E, 0x589D5570, 0xB13AAAE0, 0xC367FF81, 0x27DD5543, 0x4FBAAA86,
  0xB3BAAAE1, 0xC667FF83, 0x2DDD5547, 0x5BBAAA8E, 0x9BBAAAF1, 0x9667FFA3, 0x8DDD5507, 0x9667FFA2,
  0x8DDD5505, 0x9667FFA6, 0x8DDD550D, 0x9667FFB6, 0x8DDD552D, 0x9667FFF6, 0x8DDD55AD, 0x9667FEF6,
  0x8DDD57AD, 0xBAA8051B, 0xF88D5F9A, 0x50081575, 0xA0102AEA, 0xE132FF95, 0x6377556B, 0xC6EEAAD6]

theorem ssig0Fn_bijective : Function.Bijective ssig0Fn :=
  ssig0Fn_linear.bijective (wordAt ssig0Preimages) (by decide)

theorem ssig1Fn_bijective : Function.Bijective ssig1Fn :=
  ssig1Fn_linear.bijective (wordAt ssig1Preimages) (by decide)

end Sys2Proof.Machine
end

section
/-! SUPPORT. Acceptance of a command while BUSY and from idle (60_exceptions.md R139), and the run of a primitive
(40_primitives.md R76). -/

namespace Sys2Proof.Machine

open Sys2Proof.Safety

/-- R139: while BUSY = 1 every command is rejected with the BUSY error, ERR bit 3. -/
theorem exec_of_busy (i : Instr) {s : State} (h : s.engine.busy = true) : exec i s = .next (rejected 0x08#5 s) := by
  simp only [exec_eq_issue, issue, h, if_true]
  rfl

/-- R139: with BUSY = 0 a command whose own conditions hold is accepted. -/
theorem exec_of_not_busy {i : Instr} {s : State} (h : s.engine.busy = false)
    (hc : acceptanceCheck s.engine i = none) : exec i s = .next (accepted i s) := by
  simp only [exec_eq_issue, issue, h, hc]
  rfl

/-- R56, R76: when the one micro-step of an accepted command has written PRES, the engine is idle again and PRES is all
that has changed. -/
theorem retire_writePres_accepted {s : State} (i : Instr) (x : Word) (hs : Idle s.engine) :
    retire i [] (writePres x (accepted i s)) = { s with engine := { s.engine with pres := x } } := by
  obtain ⟨hbusy, hpend⟩ := hs
  apply state_ext
  · rw [retire_engine, writePres_engine]
    simp [accepted, hbusy, hpend]
  · rfl
  · rfl
  · rfl

/-- R76: a primitive has no condition and one micro-step; from idle it is accepted and its engine turn writes PRES. -/
theorem primitive_runs {i : Instr} {m : MicroStep} {x : Word} {s : State} (hs : Idle s.engine)
    (hc : acceptanceCheck s.engine i = none) (hsteps : microSteps i = [m])
    (hm : microStep m (accepted i s) = .next (writePres x (accepted i s))) :
    ∃ t, exec i s = .next t ∧ t = accepted i s ∧
      engineTurn t = .next { s with engine := { s.engine with pres := x } } := by
  have ⟨hbusy, _⟩ := hs
  have hpend : (accepted i s).engine.pend = some ⟨i, [m]⟩ := by rw [← hsteps]; rfl
  refine ⟨_, exec_of_not_busy hbusy hc, rfl, ?_⟩
  rw [engineTurn_of_pend hpend hm, retire_writePres_accepted i x hs]

end Sys2Proof.Machine
end

section
/-! SUPPORT. The primitives' statements (40_primitives.md). -/

namespace Sys2Proof.Safety

open Sys2Proof.Machine

/-- Settles O28: the amount is below 32, and the bits of the rotated word say the rest. -/
theorem rotationMovesBits : Obligations.RotationMovesBits := by
  intro n hn
  exact ⟨fun x _ => getLsbD_rotr x n, fun x _ => rotr_of_lt x (by omega), fun x => rotr_of_dvd x (dvd_zero 32),
    rotr_bijective n, rotr_of_bits_eq (b := true) (by decide) n, rotr_of_bits_eq (b := false) (by decide) n⟩

/-- Settles O29: both functions bit by bit. -/
theorem choiceAndMajorityByBit : Obligations.ChoiceAndMajorityByBit := fun x y z =>
  ⟨fun _ => getLsbD_chFn x y z, fun i _ => getLsbD_majFn x y z i, majFn_swap_left x y z, majFn_swap_right x y z,
    chFn_self x y, majFn_self x z, majFn_not x z⟩

/-- Settles O30: each function is a xor of rotations and shifts, which are linear. -/
theorem mixingIsLinear : Obligations.MixingIsLinear := by
  intro f hf
  have hlin : XorLinear f := by
    obtain rfl | rfl | rfl | rfl := hf
    · exact bsig0Fn_linear
    · exact bsig1Fn_linear
    · exact ssig0Fn_linear
    · exact ssig1Fn_linear
  exact ⟨hlin.zero, hlin⟩

/-- Settles O31: BSIG0 and BSIG1 squared five times are the identity; SSIG0 and SSIG1 are linear and reach every
one-bit word. -/
theorem mixingIsBijective : Obligations.MixingIsBijective :=
  ⟨bsig0Fn_bijective, bsig1Fn_bijective, ssig0Fn_bijective, ssig1Fn_bijective⟩

/-- Settles O11: acceptance checks BUSY first, for every command. -/
theorem busyCommandIsRejected : Obligations.BusyCommandIsRejected := fun i _ => exec_of_busy i

/-- Settles O22: the word's bits from 13 on are reserved in ROTR's row; the primitive's engine turn writes the
rotation. -/
theorem rotrWritesResult : Obligations.RotrWritesResult := by
  refine ⟨fun n _ => rfl, fun v hopc hr => ?_, fun n _ => exec_of_busy _, fun s n _ hs => ?_⟩
  · exact decode_of_reserved_set (i := .rotr 0) (opcodeField_eq_iff.mpr hopc) (by simp only [operandBits]; omega)
  · exact primitive_runs hs rfl rfl rfl

/-- Settles O23: each of the two is a primitive whose engine turn writes its own function of the operands. -/
theorem chAndMajWriteResult : Obligations.ChAndMajWriteResult :=
  ⟨rfl, rfl, fun _ => exec_of_busy _, fun _ => exec_of_busy _, fun _ hs =>
    ⟨primitive_runs hs rfl rfl rfl, primitive_runs hs rfl rfl rfl⟩⟩

/-- Settles O24: each of the four is a primitive whose engine turn writes its own function of OPX. -/
theorem mixingCommandsWriteResult : Obligations.MixingCommandsWriteResult :=
  ⟨rfl, rfl, rfl, rfl, fun _ => exec_of_busy _, fun _ => exec_of_busy _, fun _ => exec_of_busy _,
    fun _ => exec_of_busy _, fun _ hs => ⟨primitive_runs hs rfl rfl rfl, primitive_runs hs rfl rfl rfl,
      primitive_runs hs rfl rfl rfl, primitive_runs hs rfl rfl rfl⟩⟩

end Sys2Proof.Safety
end

section
/-! SUPPORT. `Expand` is the one schedule of 64 words in which each word is the schedule word R96 gives for it. -/

namespace Sys2Proof.Machine

/-- R96: below 16 the schedule word is the message word. -/
theorem scheduleWord_of_lt (m : Vector Word 16) (w : Vector Word 64) {t : Nat} (h : t < 16) :
    scheduleWord m w t = wordAt m t := if_pos h

/-- R97: from 16 on the schedule word is the recurrence over the words before it. -/
theorem scheduleWord_of_not_lt (m : Vector Word 16) (w : Vector Word 64) {t : Nat} (h : ¬ t < 16) :
    scheduleWord m w t = ssig1Fn (wordAt w (t - 2)) + wordAt w (t - 7) + ssig0Fn (wordAt w (t - 15)) +
      wordAt w (t - 16) := if_neg h

/-- R97: schedule word `t` depends on the words before `t` only. -/
theorem scheduleWord_congr (m : Vector Word 16) {v w : Vector Word 64} {t : Nat}
    (h : ∀ j < t, wordAt v j = wordAt w j) : scheduleWord m v t = scheduleWord m w t := by
  by_cases ht : t < 16
  · rw [scheduleWord_of_lt m v ht, scheduleWord_of_lt m w ht]
  · rw [scheduleWord_of_not_lt m v ht, scheduleWord_of_not_lt m w ht, h (t - 2) (by omega), h (t - 7) (by omega),
      h (t - 15) (by omega), h (t - 16) (by omega)]

/-- R96: with the first `k` words computed, each of them is its own schedule word; computing later ones changes none. -/
theorem wordAt_expandPrefix (m : Vector Word 16) {k j : Nat} (hj : j < k) (hk : k ≤ 64) :
    wordAt (expandPrefix m k) j = scheduleWord m (expandPrefix m k) j := by
  induction k with
  | zero => omega
  | succ k ih =>
    rw [expandPrefix, Safety.scheduleWord_set_of_le _ _ _ (by omega)]
    obtain hlt | rfl : j < k ∨ j = k := by omega
    · rw [wordAt_set_of_ne _ _ (by omega)]
      exact ih hlt (by omega)
    · rw [wordAt_set, if_pos ⟨rfl, hk⟩]

/-- R96: each word of `Expand(m)` is its own schedule word. -/
theorem wordAt_expand (m : Vector Word 16) {t : Nat} (h : t < 64) :
    wordAt (expand m) t = scheduleWord m (expand m) t := wordAt_expandPrefix m h le_rfl

/-- R96: `Expand(m)` is the only schedule with that property. -/
theorem eq_expand {m : Vector Word 16} {w : Vector Word 64} (h : ∀ t < 64, wordAt w t = scheduleWord m w t) :
    w = expand m := by
  apply vector_ext_wordAt
  intro t
  induction t using Nat.strong_induction_on with
  | _ t ih =>
    intro ht
    have hbefore : ∀ j < t, wordAt w j = wordAt (expand m) j := fun j hj => ih j hj (hj.trans ht)
    rw [h t ht, wordAt_expand m ht, scheduleWord_congr m hbefore]

end Sys2Proof.Machine
end

section
/-! SUPPORT. The schedule's statements (41_schedule.md). -/

namespace Sys2Proof.Safety

open Sys2Proof.Machine

/-- Settles O32: each word of `Expand(m)` is its own schedule word, which is the message word below 16 and the
recurrence from 16 on. -/
theorem expandSatisfiesRecurrence : Obligations.ExpandSatisfiesRecurrence := by
  refine fun m => ⟨fun t ht => ?_, fun t h16 h64 => ?_⟩
  · rw [wordAt_expand m (by omega), scheduleWord_of_lt m _ ht, wordAt_of_lt m ht]
  · rw [wordAt_expand m h64, scheduleWord_of_not_lt m _ (by omega)]

/-- Settles O33: at T = 64 every word from 16 on is latched, so W has the property that only the expansion of its first
16 words has. -/
theorem scheduleIsExpansionOfLatchedWords : Obligations.ScheduleIsExpansionOfLatchedWords := by
  intro e hinv ht
  refine eq_expand fun j hj => ?_
  by_cases h16 : j < 16
  · simp [scheduleWord_of_lt _ _ h16, wordAt_of_lt _ h16]
  · rw [scheduleWord_of_ge _ e.m e.w (by omega)]
    exact hinv.w_latched j (by omega) (by omega)

/-- Settles O34, by the effects of a step: only BEGIN, a round and reset write W, and a round writes W[T] alone. -/
theorem scheduleWordsAreImmutable : Obligations.ScheduleWordsAreImmutable := by
  intro s u h j hne
  have heff := step_effect h
  generalize u.engine = e at *
  cases heff with
  | unchanged | rejected => exact absurd rfl hne
  | write hw he => cases he <;> exact absurd rfl hne
  | turn hs hp he =>
    cases he with
    | begin => exact .inr (.inl ⟨⟨hs, _, _, hp⟩, wordAt_replicate_zero 64 j⟩)
    | round ht =>
      refine .inr (.inr ⟨⟨hs, _, _, hp⟩, ?_⟩)
      by_contra hj
      exact hne (wordAt_set_of_ne s.engine.w _ (Ne.symm hj))
    | _ => exact absurd rfl hne
  | reset hr => exact .inl hr

end Sys2Proof.Safety
end

section
/-! SUPPORT. Nothing but the sink depends on TRACE_EN, on the sink or on what the host has read (42_compression.md R111;
43_host_protocol.md R131): two systems that agree but for these keep agreeing, step by step. -/

namespace Sys2Proof.Machine

/-- R111: the second system has the first one's agenda and engine but for TRACE_EN. -/
inductive TraceAgree (s : State) : State → Prop
  | intro (traceEn : Bool) (reads : List HostRead) (trace : List TraceRecord) :
      TraceAgree s ⟨{ s.engine with traceEn := traceEn }, s.agenda, reads, trace⟩

theorem traceAgree_iff {s s' : State} : TraceAgree s s' ↔
    s.agenda = s'.agenda ∧ { s.engine with traceEn := false } = { s'.engine with traceEn := false } := by
  refine ⟨fun ⟨_, _, _⟩ => ⟨rfl, rfl⟩, fun ⟨hagenda, hengine⟩ => ?_⟩
  obtain ⟨e', agenda', reads', trace'⟩ := s'
  have he : { s.engine with traceEn := e'.traceEn } = e' :=
    congrArg (fun e : Engine => { e with traceEn := e'.traceEn }) hengine
  cases hagenda
  rw [← he]
  exact .intro _ _ _

/-- Both systems go on, still agreeing, or both stop for the same reason. -/
inductive OutcomeAgree : Host.Outcome State Fault Refusal → Host.Outcome State Fault Refusal → Prop
  | next {s s' : State} (h : TraceAgree s s') : OutcomeAgree (.next s) (.next s')
  | fault (r : Fault) : OutcomeAgree (.fault r) (.fault r)
  | refused (r : Refusal) : OutcomeAgree (.refused r) (.refused r)

/-- R111: emission is the one operation that reads TRACE_EN, and it writes the sink alone. -/
theorem TraceAgree.emit {s s' : State} (h : TraceAgree s s') (r : TraceRecord) :
    TraceAgree (emit r s) (emit r s') := by
  obtain ⟨b, reads, trace⟩ := h
  cases hs : s.engine.traceEn <;> cases b <;> simp only [Machine.emit, hs] <;> exact .intro _ _ _

theorem TraceAgree.roundStep {s s' : State} (h : TraceAgree s s') : TraceAgree (roundStep s) (roundStep s') := by
  obtain ⟨b, reads, trace⟩ := h
  exact TraceAgree.emit (.intro b reads trace) _

theorem TraceAgree.retire {s s' : State} (h : TraceAgree s s') (op : Instr) (later : List MicroStep) :
    TraceAgree (retire op later s) (retire op later s') := by
  obtain ⟨b, reads, trace⟩ := h
  cases later <;> exact .intro _ _ _

theorem TraceAgree.microStep {s s' : State} (h : TraceAgree s s') (m : MicroStep) :
    OutcomeAgree (microStep m s) (microStep m s') := by
  cases m with
  | round =>
    have hround := h.roundStep
    obtain ⟨b, reads, trace⟩ := h
    by_cases ht : s.engine.t < 64
    · simpa only [Machine.microStep, microRound, ht] using .next hround
    · simpa only [Machine.microStep, microRound, ht] using .fault _
  | _ => obtain ⟨b, reads, trace⟩ := h; exact .next (.intro _ _ _)

theorem TraceAgree.engineTurn {s s' : State} (h : TraceAgree s s') :
    OutcomeAgree (engineTurn s) (engineTurn s') := by
  have hpend : s'.engine.pend = s.engine.pend := by obtain ⟨_, _, _⟩ := h; rfl
  simp only [Machine.engineTurn, hpend]
  match s.engine.pend with
  | none => exact .next h
  | some ⟨_, []⟩ => exact .fault _
  | some ⟨op, m :: later⟩ =>
    have hm := h.microStep m
    dsimp only
    generalize Machine.microStep m s = o, Machine.microStep m s' = o' at hm
    cases hm with
    | next hv => exact .next (hv.retire op later)
    | fault r => exact .fault r
    | refused r => exact .refused r

/-- R139: acceptance reads no TRACE_EN. -/
theorem TraceAgree.exec {s s' : State} (h : TraceAgree s s') (i : Instr) : OutcomeAgree (exec i s) (exec i s') := by
  obtain ⟨b, reads, trace⟩ := h
  have hcheck : acceptanceCheck { s.engine with traceEn := b } i = acceptanceCheck s.engine i := by cases i <;> rfl
  simp only [exec_eq_issue, issue, hcheck]
  split
  · exact .next (.intro _ _ _)
  · split <;> exact .next (.intro _ _ _)

theorem TraceAgree.writeReg {s s' : State} (h : TraceAgree s s') (r : Reg) (v : Word) :
    OutcomeAgree (writeReg r v s) (writeReg r v s') := by
  cases r with
  | cmd =>
    simp only [Machine.writeReg, acceptWord]
    cases decode v with
    | ok i => exact h.exec i
    | error _ => obtain ⟨_, _, _⟩ := h; exact .next (.intro _ _ _)
  | cv i =>
    obtain ⟨b, reads, trace⟩ := h
    simp only [Machine.writeReg]
    split <;> exact .next (.intro _ _ _)
  | _ => obtain ⟨_, _, _⟩ := h; exact .next (.intro _ _ _)

theorem TraceAgree.memWrite {s s' : State} (h : TraceAgree s s') (off : BitVec 10) (n : Nat) (v : Word) :
    OutcomeAgree (memWrite off n v s) (memWrite off n v s') := by
  have hraise (c : ErrorCode) : TraceAgree (raise c s) (raise c s') := by obtain ⟨_, _, _⟩ := h; exact .intro _ _ _
  have hbusy : s'.engine.busy = s.engine.busy := by obtain ⟨_, _, _⟩ := h; rfl
  simp only [Machine.memWrite, hbusy]
  split
  · exact .next (hraise _)
  split
  · exact .next (hraise _)
  cases regAt off with
  | some r => exact h.writeReg r v
  | none => exact .next (hraise _)

theorem TraceAgree.perform {s s' : State} (h : TraceAgree s s') (ev : Event) :
    OutcomeAgree (perform ev s) (perform ev s') := by
  cases ev with
  | write off n v => exact h.memWrite off n v
  | engine => exact h.engineTurn
  | read | reset => obtain ⟨_, _, _⟩ := h; exact .next (.intro _ _ _)

/-- R111, R131: one step of each system keeps them in agreement. -/
theorem TraceAgree.step {s s' : State} (h : TraceAgree s s') : OutcomeAgree (step s) (step s') := by
  have hagenda : s'.agenda = s.agenda := by obtain ⟨_, _, _⟩ := h; rfl
  cases ha : s.agenda with
  | nil =>
    rw [step_nil ha, step_nil (hagenda.trans ha)]
    exact h.engineTurn
  | cons ev rest =>
    rw [step_cons ha, step_cons (hagenda.trans ha)]
    refine TraceAgree.perform ?_ ev
    obtain ⟨_, _, _⟩ := h
    exact .intro _ _ _

end Sys2Proof.Machine
end

section
/-! SUPPORT. The trace's noninterference (42_compression.md R111). -/

namespace Sys2Proof.Safety

open Sys2Proof.Machine

/-- Settles O37, by induction on the number of steps: each step keeps the two systems in agreement. -/
theorem traceHasNoEffectOnComputation : Obligations.TraceHasNoEffectOnComputation := by
  intro k s s' u hagenda hengine hrun
  suffices ∃ u', core.run k s' = .next u' ∧ TraceAgree u u' from
    this.imp fun _ ⟨hrun', hu⟩ => ⟨hrun', traceAgree_iff.mp hu⟩
  have h : TraceAgree s s' := traceAgree_iff.mpr ⟨hagenda, hengine⟩
  clear hagenda hengine
  induction k generalizing s s' with
  | zero => cases hrun; exact ⟨s', rfl, h⟩
  | succ k ih =>
    have hstep := h.step
    simp only [Host.Core.run] at hrun ⊢
    change OutcomeAgree (core.step s) (core.step s') at hstep
    generalize core.step s = o, core.step s' = o' at hstep hrun
    cases hstep with
    | next hv => exact ih _ _ hrun hv
    | fault | refused => cases hrun

end Sys2Proof.Safety
end

section
/-! SUPPORT. The run of an accepted command from idle (20_memory.md R56; 60_exceptions.md R139): its engine turns are its
micro-steps in order, which neither read nor write PEND and BUSY. -/

namespace Sys2Proof.Machine

open Sys2Proof.Safety

/-- R139: with BUSY = 0 a command whose own conditions fail raises their error. -/
theorem exec_of_check {i : Instr} {c : ErrorCode} {s : State} (h : s.engine.busy = false)
    (hc : acceptanceCheck s.engine i = some c) : exec i s = .next (raise c s) := by
  simp [exec_eq_issue, issue, h, hc]

/-- R139: a command that meets its own conditions has a micro-step. -/
theorem microSteps_ne_nil {e : Engine} {i : Instr} (hc : acceptanceCheck e i = none) : microSteps i ≠ [] := by
  cases i with
  | round n =>
    simp only [acceptanceCheck, needsRounds] at hc
    split_ifs at hc with _ hn
    simp only [microSteps, ne_eq, List.replicate_eq_nil_iff]
    omega
  | _ => simp [microSteps]

/-- A round neither reads nor writes PEND and BUSY. -/
theorem roundStep_accept (op : Instr) (l : List MicroStep) (s : State) :
    roundStep (accept op l s) = accept op l (roundStep s) := by
  apply state_ext
  · simp [roundStepEngine]
  · simp
  · simp
  · rw [accept_trace, roundStep_trace, roundStep_trace]
    rfl

/-- No micro-step reads or writes PEND and BUSY: R56 moves them on once it is done. -/
theorem microStep_accept (op : Instr) (l : List MicroStep) {m : MicroStep} {s u : State} (h : microStep m s = .next u) :
    microStep m (accept op l s) = .next (accept op l u) := by
  cases m with
  | round =>
    simp only [microStep, microRound] at h ⊢
    split_ifs at h with hlt
    cases h
    exact (if_pos hlt).trans (congrArg _ (roundStep_accept op l s))
  | _ => cases h; rfl

/-- A micro-step leaves an idle engine idle. -/
theorem idle_microStep {m : MicroStep} {s u : State} (hs : Idle s.engine) (h : microStep m s = .next u) :
    Idle u.engine := by
  have he := microStep_effect h
  generalize u.engine = e at *
  cases he <;> exact hs

/-- R56: micro-steps performed in order, with PEND and BUSY left aside. -/
inductive Performed : List MicroStep → State → State → Prop
  | nil (s : State) : Performed [] s s
  | cons {m : MicroStep} {l : List MicroStep} {s v u : State} (hm : microStep m s = .next v) (hl : Performed l v u) :
      Performed (m :: l) s u

theorem Performed.single {m : MicroStep} {s u : State} (hm : microStep m s = .next u) : Performed [m] s u :=
  .cons hm (.nil u)

theorem Performed.append {l₁ l₂ : List MicroStep} {s v u : State} (h₁ : Performed l₁ s v) (h₂ : Performed l₂ v u) :
    Performed (l₁ ++ l₂) s u := by
  induction h₁ with
  | nil => exact h₂
  | cons hm _ ih => exact .cons hm (ih h₂)

theorem Performed.idle {l : List MicroStep} {s u : State} (h : Performed l s u) (hs : Idle s.engine) :
    Idle u.engine := by
  induction h with
  | nil => exact hs
  | cons hm _ ih => exact ih (idle_microStep hs hm)

/-- R56: an engine turn performs the first micro-step and moves PEND on to the next. -/
theorem engineTurn_accept (op : Instr) {m l : MicroStep} {ls : List MicroStep} {s v : State}
    (hm : microStep m s = .next v) : engineTurn (accept op (m :: l :: ls) s) = .next (accept op (l :: ls) v) :=
  engineTurn_of_pend rfl (microStep_accept op _ hm)

/-- R56: the turn of the last micro-step leaves the engine idle. -/
theorem engineTurn_accept_last (op : Instr) {m : MicroStep} {s v : State} (hs : Idle s.engine)
    (hm : microStep m s = .next v) : engineTurn (accept op [m] s) = .next v := by
  obtain ⟨hbusy, hpend⟩ := idle_microStep hs hm
  rw [engineTurn_of_pend rfl (microStep_accept op _ hm)]
  exact congrArg _ (state_ext (by simp [retire_engine, ← hbusy, ← hpend]) rfl rfl rfl)

/-- Engine turns short of a command's last one perform its micro-steps in order. -/
theorem engineTurns_accept (op : Instr) {l₁ l₂ : List MicroStep} {s u : State} (h : Performed l₁ s u) (hne : l₂ ≠ []) :
    engineTurns l₁.length (accept op (l₁ ++ l₂) s) = .next (accept op l₂ u) := by
  induction h with
  | nil => rfl
  | @cons m l s v u hm _ ih =>
    obtain ⟨x, xs, hx⟩ := List.exists_cons_of_ne_nil (List.append_ne_nil_of_right_ne_nil l hne)
    rw [hx] at ih
    rw [List.cons_append, hx]
    exact (engineTurns_succ _ (engineTurn_accept op hm)).trans ih

/-- R56: as many engine turns as a command has micro-steps perform them all and leave the engine idle. -/
theorem engineTurns_accept_all (op : Instr) {l : List MicroStep} {s u : State} (hs : Idle s.engine) (hne : l ≠ [])
    (h : Performed l s u) : engineTurns l.length (accept op l s) = .next u := by
  induction h with
  | nil => exact absurd rfl hne
  | @cons m l s v u hm hl ih =>
    cases hl with
    | nil => exact engineTurns_succ 0 (engineTurn_accept_last op hs hm)
    | cons => exact (engineTurns_succ _ (engineTurn_accept op hm)).trans (ih (idle_microStep hs hm) (by simp))

section

variable {i : Instr} {s u : State} (hs : Idle s.engine) (hc : acceptanceCheck s.engine i = none)
  (h : Performed (microSteps i) s u)

include hs hc h

/-- R139, R56: from idle, a command whose own conditions hold is accepted and then runs to its end. -/
theorem command_runs : ∃ t, exec i s = .next t ∧ t = accepted i s ∧ engineTurns (microSteps i).length t = .next u :=
  ⟨_, exec_of_not_busy hs.1 hc, rfl, engineTurns_accept_all i hs (microSteps_ne_nil hc) h⟩

/-- The same as one run. -/
theorem runCommand_eq : runCommand i (microSteps i).length s = .next u := by
  obtain ⟨t, hexec, -, hturns⟩ := command_runs hs hc h
  simpa [runCommand, hexec] using hturns

end

/-- R139, R56: the same of a command with one micro-step. -/
theorem command_runs_one {i : Instr} {m : MicroStep} {s u : State} (hs : Idle s.engine)
    (hc : acceptanceCheck s.engine i = none) (hsteps : microSteps i = [m]) (hm : microStep m s = .next u) :
    ∃ t, exec i s = .next t ∧ t = accepted i s ∧ engineTurn t = .next u := by
  refine ⟨_, exec_of_not_busy hs.1 hc, rfl, ?_⟩
  have h := engineTurn_accept_last i hs hm
  rwa [← hsteps] at h

/-- R109: the fold, word by word. -/
theorem fold_eq (cv : Vector Word 8) (s : Working) : fold cv s =
    #v[cv[0] + s.a, cv[1] + s.b, cv[2] + s.c, cv[3] + s.d, cv[4] + s.e, cv[5] + s.f, cv[6] + s.g, cv[7] + s.h] := by
  apply Vector.ext
  intro i hi
  interval_cases i <;> simp [fold, Working.toVector]

/-- R139: INIT, BEGIN and COMPRESS are turned away while a block is open. -/
theorem needsClosed_of_open {e : Engine} (h : e.isOpen = true) : needsClosed e = some .sequence := if_pos h

theorem needsClosed_of_closed {e : Engine} (h : e.isOpen = false) : needsClosed e = none := by
  simp [needsClosed, h]

theorem needsRounds_of_closed {e : Engine} (n : Nat) (h : e.isOpen = false) : needsRounds n e = some .sequence := by
  simp [needsRounds, h]

theorem needsRounds_of_range {e : Engine} {n : Nat} (ho : e.isOpen = true) (h : n = 0 ∨ 64 < e.t + n) :
    needsRounds n e = some .range := by
  simp [needsRounds, ho, h]

theorem needsRounds_eq_none {e : Engine} {n : Nat} (ho : e.isOpen = true) (h1 : 1 ≤ n) (h64 : e.t + n ≤ 64) :
    needsRounds n e = none := by
  have hn : ¬ (n = 0 ∨ 64 < e.t + n) := by omega
  simp [needsRounds, ho, hn]

theorem needsComplete_eq_some {e : Engine} (h : e.isOpen = false ∨ e.t ≠ 64) : needsComplete e = some .sequence := by
  simp [needsComplete, h]

theorem needsComplete_eq_none {e : Engine} (ho : e.isOpen = true) (ht : e.t = 64) : needsComplete e = none := by
  simp [needsComplete, ho, ht]

end Sys2Proof.Machine
end

section
/-! SUPPORT. The statements on commands of one micro-step (42_compression.md R106 to R112). -/

namespace Sys2Proof.Safety

open Sys2Proof.Machine

/-- Settles O14: NOP's one micro-step leaves the state it finds. -/
theorem nopChangesNothing : Obligations.NopChangesNothing := by
  refine ⟨rfl, fun v => ?_, fun _ => exec_of_busy _, fun s hs => command_runs_one hs rfl rfl rfl⟩
  rw [decode_eq_ok_iff]
  exact ⟨fun h => h.2.symm, fun h => ⟨rfl, h.symm⟩⟩

/-- Settles O15: INIT's one micro-step, accepted when no block is open. -/
theorem initLoadsStandardValue : Obligations.InitLoadsStandardValue :=
  ⟨rfl, fun _ => exec_of_busy _, fun _ hb ho => exec_of_check (i := .init) hb (needsClosed_of_open ho), fun _ hs ho =>
    command_runs_one hs (needsClosed_of_closed ho) rfl rfl⟩

/-- Settles O16: BEGIN's one micro-step, accepted when no block is open. -/
theorem beginOpensBlock : Obligations.BeginOpensBlock :=
  ⟨rfl, fun _ => exec_of_busy _, fun _ hb ho => exec_of_check (i := .begin) hb (needsClosed_of_open ho), fun _ hs ho =>
    command_runs_one hs (needsClosed_of_closed ho) rfl rfl⟩

/-- Settles O19: FINISH's one micro-step, accepted when an open block has had its 64 rounds. -/
theorem finishFoldsBlock : Obligations.FinishFoldsBlock := by
  refine ⟨rfl, fun _ => exec_of_busy _, fun _ hb h => exec_of_check (i := .finish) hb (needsComplete_eq_some h),
    fun s hs ho ht => ?_⟩
  rw [← fold_eq]
  exact command_runs_one hs (needsComplete_eq_none ho ht) rfl rfl

/-- Settles O21: ABORT's one micro-step, accepted in any phase. -/
theorem abortClosesWithoutFold : Obligations.AbortClosesWithoutFold :=
  ⟨rfl, fun _ => exec_of_busy _, fun _ hs => command_runs_one hs rfl rfl rfl⟩

end Sys2Proof.Safety
end

section
/-! SUPPORT. What `n` rounds in a row do (42_compression.md R104, R105, R113): the working state by `rounds` over the
schedule they leave, each schedule word latched in its turn, each round recorded. -/

namespace Sys2Proof.Machine

open Sys2Proof.Safety

/-- R113: rounds t..t+k-1 read the schedule words t..t+k-1 only. -/
theorem rounds_congr {v w : Vector Word 64} (s : Working) (t : Nat) {k : Nat}
    (h : ∀ j, t ≤ j → j < t + k → wordAt v j = wordAt w j) : rounds v s t k = rounds w s t k := by
  induction k with
  | zero => rfl
  | succ k ih =>
    rw [rounds, rounds, ih fun j h1 h2 => h j h1 (by omega), h (t + k) (by omega) (by omega)]

/-- R111: the records of `k` rounds in a row from `e`, whose schedule words are those of `w`. -/
def roundRecords (e : Engine) (w : Vector Word 64) (k : Nat) : List TraceRecord :=
  (List.range k).map (fun i => ⟨e.blkcnt, e.t + i, rounds w e.work e.t (i + 1)⟩)

theorem roundRecords_succ (e : Engine) (w : Vector Word 64) (k : Nat) :
    roundRecords e w (k + 1) = roundRecords e w k ++ [⟨e.blkcnt, e.t + k, rounds w e.work e.t (k + 1)⟩] := by
  simp [roundRecords, List.range_succ]

theorem roundRecords_congr (e : Engine) {v w : Vector Word 64} {k : Nat}
    (h : ∀ j, e.t ≤ j → j < e.t + k → wordAt v j = wordAt w j) : roundRecords e v k = roundRecords e w k := by
  refine List.map_congr_left fun i hi => ?_
  have hi : i < k := List.mem_range.mp hi
  rw [rounds_congr e.work e.t fun j h1 h2 => h j h1 (by omega)]

/-- R104: `u` is `s` with `n` rounds done. -/
structure RoundsDone (n : Nat) (s u : State) : Prop where
  engine : u.engine = { s.engine with
    work := rounds u.engine.w s.engine.work s.engine.t n
    w := u.engine.w
    t := s.engine.t + n }
  kept : ∀ j, j < s.engine.t ∨ s.engine.t + n ≤ j → wordAt u.engine.w j = wordAt s.engine.w j
  latched : ∀ j, s.engine.t ≤ j → j < s.engine.t + n → wordAt u.engine.w j = scheduleWord s.engine.m u.engine.w j
  agenda : u.agenda = s.agenda
  reads : u.reads = s.reads
  trace : u.trace = s.trace ++ if s.engine.traceEn = true then roundRecords s.engine u.engine.w n else []

theorem RoundsDone.zero (s : State) : RoundsDone 0 s s where
  engine := rfl
  kept _ _ := rfl
  latched j _ _ := by omega
  agenda := rfl
  reads := rfl
  trace := by simp [roundRecords]

/-- R105: a round latches W[T] and keeps every other schedule word. -/
theorem wordAt_roundStep_of_ne (s : State) {j : Nat} (h : j ≠ s.engine.t) :
    wordAt (roundStep s).engine.w j = wordAt s.engine.w j := by
  rw [roundStep_engine]
  exact wordAt_set_of_ne s.engine.w _ h.symm

/-- R97: schedule word `j` up to T is the same before and after the round. -/
theorem scheduleWord_roundStep (m : Vector Word 16) (s : State) {j : Nat} (h : j ≤ s.engine.t) :
    scheduleWord m (roundStep s).engine.w j = scheduleWord m s.engine.w j := by
  rw [roundStep_engine]
  exact scheduleWord_set_of_le m s.engine.w _ h

theorem wordAt_roundStep_self {s : State} (h : s.engine.t < 64) :
    wordAt (roundStep s).engine.w s.engine.t = scheduleWord s.engine.m (roundStep s).engine.w s.engine.t := by
  rw [scheduleWord_roundStep _ s le_rfl, roundStep_engine]
  exact (wordAt_set ..).trans (if_pos ⟨rfl, h⟩)

/-- R105: a round applies Round with the word it latches. -/
theorem roundStep_work {s : State} (h : s.engine.t < 64) :
    (roundStep s).engine.work =
      roundFn s.engine.work s.engine.t (wordAt (roundStep s).engine.w s.engine.t) := by
  rw [wordAt_roundStep_self h, scheduleWord_roundStep _ s le_rfl, roundStep_engine]
  rfl

/-- R105: a round after `n` rounds latches the next word and applies Round to the state they leave. -/
theorem RoundsDone.roundStep {n : Nat} {s u : State} (h : RoundsDone n s u) (hn : s.engine.t + n < 64) :
    RoundsDone (n + 1) s (roundStep u) := by
  have ht : u.engine.t = s.engine.t + n := by rw [h.engine]
  have hm : u.engine.m = s.engine.m := by rw [h.engine]
  have hlt : u.engine.t < 64 := by omega
  have hbefore : ∀ j, s.engine.t ≤ j → j < s.engine.t + n →
      wordAt u.engine.w j = wordAt (Machine.roundStep u).engine.w j :=
    fun j _ hj => (wordAt_roundStep_of_ne u (by omega)).symm
  have hwork : (Machine.roundStep u).engine.work =
      rounds (Machine.roundStep u).engine.w s.engine.work s.engine.t (n + 1) := by
    rw [roundStep_work hlt, rounds, ← rounds_congr _ _ hbefore, ← ht]
    exact congrArg (roundFn · _ _) (congrArg Engine.work h.engine)
  refine ⟨?_, fun j hj => ?_, fun j h1 h2 => ?_, ?_, ?_, ?_⟩
  · calc (Machine.roundStep u).engine
        = { u.engine with
            work := (Machine.roundStep u).engine.work
            w := (Machine.roundStep u).engine.w
            t := u.engine.t + 1 } := by rw [roundStep_engine]; rfl
      _ = _ := by rw [hwork, h.engine]; rfl
  · rw [wordAt_roundStep_of_ne u (by omega)]
    exact h.kept j (by omega)
  · obtain hlt' | rfl : j < u.engine.t ∨ j = u.engine.t := by omega
    · rw [wordAt_roundStep_of_ne u (by omega), scheduleWord_roundStep _ u (by omega)]
      exact h.latched j h1 (by omega)
    · rw [wordAt_roundStep_self hlt, hm]
  · rw [roundStep_agenda, h.agenda]
  · rw [roundStep_reads, h.reads]
  · have htrace : u.engine.traceEn = s.engine.traceEn := by rw [h.engine]
    have hblk : u.engine.blkcnt = s.engine.blkcnt := by rw [h.engine]
    rw [roundStep_trace, ← roundStep_engine, hwork, htrace, hblk, ht, h.trace, roundRecords_succ,
      roundRecords_congr s.engine hbefore]
    split <;> simp

/-- R104: `n` rounds that end at T at most 64 are performed, and have the effect of `n` rounds. -/
theorem exists_performed_rounds {n : Nat} {s : State} (h : s.engine.t + n ≤ 64) :
    ∃ u, Performed (List.replicate n .round) s u ∧ RoundsDone n s u := by
  induction n with
  | zero => exact ⟨s, .nil s, .zero s⟩
  | succ n ih =>
    obtain ⟨u, hu, hdone⟩ := ih (by omega)
    have ht : u.engine.t = s.engine.t + n := by rw [hdone.engine]
    have hround : microStep .round u = .next (roundStep u) := if_pos (by omega)
    rw [List.replicate_succ']
    exact ⟨_, hu.append (.single hround), hdone.roundStep (by omega)⟩

end Sys2Proof.Machine
end

section
/-! SUPPORT. A whole block (42_compression.md R104, R110, R113): BEGIN's micro-step, rounds, FINISH's micro-step, whether
COMPRESS performs them or BEGIN, ROUND and FINISH commands do. -/

namespace Sys2Proof.Machine

open Sys2Proof.Safety

/-- R108, R104: BEGIN's micro-step and `k` rounds of the block it opens. -/
theorem exists_performed_begin_rounds (s : State) {k : Nat} (hk : k ≤ 64) :
    ∃ u, Performed (.begin :: List.replicate k .round) s u ∧ RoundsDone k (microBegin s) u := by
  have h64 : (microBegin s).engine.t + k ≤ 64 := by simpa [microBegin] using hk
  obtain ⟨u, hu, hdone⟩ := exists_performed_rounds h64
  exact ⟨u, .cons rfl hu, hdone⟩

/-- R110: COMPRESS's micro-steps, cut after its first `k` rounds. -/
theorem microSteps_compress_eq {k : Nat} (hk : k ≤ 64) : microSteps .compress =
    (.begin :: List.replicate k .round) ++ (List.replicate (64 - k) .round ++ [.finish]) := by
  have hsplit : List.replicate 64 MicroStep.round = List.replicate k .round ++ List.replicate (64 - k) .round := by
    rw [List.replicate_append_replicate, Nat.add_sub_of_le hk]
  simp only [microSteps, hsplit, List.append_assoc, List.cons_append, List.nil_append]

/-- R113: 64 rounds from T = 0 leave W = Expand(M). -/
theorem RoundsDone.w_eq_expand {s u : State} (h : RoundsDone 64 s u) (ht : s.engine.t = 0) :
    u.engine.w = expand s.engine.m :=
  eq_expand fun j hj => h.latched j (by omega) (by omega)

/-- R113: BEGIN, 64 rounds and FINISH compress the block. -/
theorem microFinish_engine_of_roundsDone {s u : State} (ho : s.engine.isOpen = false)
    (h : RoundsDone 64 (microBegin s) u) : (microFinish u).engine = { s.engine with
      cv := compressFn s.engine.cv s.engine.m
      work := rounds (expand s.engine.m) (Working.ofVector s.engine.cv) 0 64
      w := expand s.engine.m
      t := 64
      blkcnt := s.engine.blkcnt + 1 } := by
  have hengine := h.engine
  rw [h.w_eq_expand rfl] at hengine
  rw [microFinish, withEngine_engine, hengine, ← ho]
  rfl

/-- R111, R115: and record every round's state. -/
theorem microFinish_trace_of_roundsDone {s u : State} (h : RoundsDone 64 (microBegin s) u) :
    (microFinish u).trace = s.trace ++ if s.engine.traceEn = true then
      (List.range 64).map (fun k => ⟨s.engine.blkcnt, k,
        rounds (expand s.engine.m) (Working.ofVector s.engine.cv) 0 (k + 1)⟩) else [] := by
  have htrace := h.trace
  rw [h.w_eq_expand rfl] at htrace
  simpa [roundRecords, microBegin, microFinish] using htrace

/-- R56, R110: an accepted COMPRESS after BEGIN's micro-step and `k` rounds. -/
theorem engineTurns_compress (s : State) {k : Nat} (hk : k ≤ 64) :
    ∃ v, engineTurns (k + 1) (accepted .compress s) =
        .next (accept .compress (List.replicate (64 - k) .round ++ [.finish]) v) ∧
      RoundsDone k (microBegin s) v := by
  obtain ⟨v, hv, hdone⟩ := exists_performed_begin_rounds s hk
  have hturns := engineTurns_accept .compress (l₂ := List.replicate (64 - k) .round ++ [.finish]) hv (by simp)
  rw [← microSteps_compress_eq hk, List.length_cons, List.length_replicate] at hturns
  exact ⟨v, hturns, hdone⟩

/-- R104: ROUND commands whose counts are positive and fit in the open block perform so many rounds, run after run. -/
theorem exists_runRounds {ns : List Nat} {s : State} (hs : Idle s.engine) (ho : s.engine.isOpen = true)
    (hpos : ∀ n ∈ ns, 1 ≤ n) (h64 : s.engine.t + ns.sum ≤ 64) :
    ∃ u, runRounds ns s = .next u ∧ Performed (List.replicate ns.sum .round) s u ∧
      u.engine.isOpen = true ∧ u.engine.t = s.engine.t + ns.sum := by
  induction ns generalizing s with
  | nil => exact ⟨s, rfl, .nil s, ho, rfl⟩
  | cons n ns ih =>
    rw [List.sum_cons] at h64 ⊢
    obtain ⟨hn, hpos⟩ := List.forall_mem_cons.mp hpos
    obtain ⟨v, hv, hdone⟩ := exists_performed_rounds (n := n) (s := s) (by omega)
    have hvo : v.engine.isOpen = true := by rw [hdone.engine]; exact ho
    have hvt : v.engine.t = s.engine.t + n := by rw [hdone.engine]
    have hrun : runCommand (.round n) n s = .next v := by
      simpa [microSteps] using runCommand_eq (i := .round n) hs (needsRounds_eq_none ho hn (by omega)) hv
    obtain ⟨u, hruns, hu, huo, hut⟩ := ih (hv.idle hs) hvo hpos (by omega)
    refine ⟨u, by simpa [runRounds, hrun] using hruns, ?_, huo, by omega⟩
    rw [List.replicate_add]
    exact hv.append hu

theorem runRounds_cons {n : Nat} {ns : List Nat} {s u : State} (h : runRounds (n :: ns) s = .next u) :
    ∃ v, runCommand (.round n) n s = .next v ∧ runRounds ns v = .next u := by
  rw [runRounds] at h
  split at h
  · rename_i v hv; exact ⟨v, hv, h⟩
  · cases h
  · cases h

end Sys2Proof.Machine
end

section
/-! SUPPORT. The statements on rounds and whole blocks (42_compression.md R103 to R105, R110, R113). -/

namespace Sys2Proof.Safety

open Sys2Proof.Machine

/-- Settles O27: the model's functions are the rotations and the bitwise formulas. -/
theorem roundFunctionEquations : Obligations.RoundFunctionEquations := by
  intro a b c d e f g h w t
  have hk : wordAt roundConstants t = roundConstants[t] := wordAt_of_lt _ t.isLt
  rw [← hk]
  rfl

/-- Settles O17: an engine turn whose micro-step is a round. -/
theorem roundStepEffect : Obligations.RoundStepEffect := by
  refine ⟨fun i hi => ?_, fun s op later hp ht => ?_⟩
  · cases i with
    | round n => exact .inl ⟨n, rfl⟩
    | compress => exact .inr rfl
    | _ => simp [microSteps] at hi
  · rw [engineTurn_of_pend hp (if_pos ht)]
    refine congrArg _ (state_ext ?_ (by simp) (by simp) ?_)
    · rw [retire_engine, roundStep_engine]; rfl
    · rw [retire_trace, roundStep_trace]; rfl

/-- Settles O18: ROUND n is accepted and its n engine turns perform n rounds. -/
theorem roundCommandRunsItsRounds : Obligations.RoundCommandRunsItsRounds := by
  refine ⟨fun _ _ => rfl, fun _ _ => exec_of_busy _, fun s n hb => ⟨fun ho => ?_, fun ho hr => ?_⟩,
    fun s n hs ho h1 h64 => ?_⟩
  · exact exec_of_check (i := .round n) hb (needsRounds_of_closed n ho)
  · exact exec_of_check (i := .round n) hb (needsRounds_of_range ho hr)
  · obtain ⟨u, hu, hdone⟩ := exists_performed_rounds h64
    obtain ⟨t, hexec, ht, hturns⟩ := command_runs (i := .round n) hs (needsRounds_eq_none ho h1 h64) hu
    rw [show (microSteps (.round n)).length = n from List.length_replicate] at hturns
    exact ⟨t, u, hexec, ht, hturns, hdone.engine, hdone.kept, hdone.latched, hdone.agenda, hdone.reads, hdone.trace⟩

/-- Settles O20: COMPRESS's 66 engine turns perform BEGIN's micro-step, 64 rounds and FINISH's micro-step. -/
theorem compressComputesCompression : Obligations.CompressComputesCompression := by
  refine ⟨rfl, fun _ => exec_of_busy _, fun s hb ho => ?_, fun s hs ho => ?_⟩
  · exact exec_of_check (i := .compress) hb (needsClosed_of_open ho)
  obtain ⟨v, hv, hdone⟩ := exists_performed_begin_rounds s le_rfl
  have hall : Performed (microSteps .compress) s (microFinish v) := hv.append (.single rfl)
  obtain ⟨t, hexec, rfl, hturns⟩ := command_runs (i := .compress) hs (needsClosed_of_closed ho) hall
  refine ⟨_, microFinish v, hexec, rfl, hturns, microFinish_engine_of_roundsDone ho hdone, fun k h1 h65 => ?_,
    hdone.agenda, hdone.reads, microFinish_trace_of_roundsDone hdone⟩
  obtain ⟨j, rfl⟩ : ∃ j, k = j + 1 := ⟨k - 1, by omega⟩
  obtain ⟨v, hturns, hdone⟩ := engineTurns_compress s (k := j) (by omega)
  refine ⟨_, hturns, ?_, rfl, ?_, ?_⟩ <;> rw [accept_engine, hdone.engine]
  · rfl
  · exact Nat.zero_add j
  · rfl

/-- Settles O26: BEGIN, the ROUND commands and FINISH perform COMPRESS's own micro-steps in COMPRESS's own order. -/
theorem anyGroupingOfRoundsEqualsCompress : Obligations.AnyGroupingOfRoundsEqualsCompress := by
  intro s ns hs ho hpos hsum
  have hbegin : Performed [.begin] s (microBegin s) := .single rfl
  obtain ⟨v, hruns, hv, hvo, hvt⟩ := exists_runRounds (ns := ns) (hbegin.idle hs) rfl hpos
    (by rw [hsum]; exact le_rfl)
  rw [hsum] at hv hvt
  have hfinish : Performed [.finish] v (microFinish v) := .single rfl
  exact ⟨_, v, _, runCommand_eq (i := .begin) hs (needsClosed_of_closed ho) hbegin, hruns,
    runCommand_eq (i := .finish) (hv.idle (hbegin.idle hs)) (needsComplete_eq_none hvo hvt) hfinish,
    runCommand_eq (i := .compress) hs (needsClosed_of_closed ho) ((hbegin.append hv).append hfinish)⟩

/-- Settles O25, as the grouping into two ROUND commands. -/
theorem steppedBlockEqualsCompress : Obligations.SteppedBlockEqualsCompress := by
  intro s a b hs ho ha hb hsum
  obtain ⟨u₁, u₃, u, hbegin, hruns, hfinish, hcompress⟩ :=
    anyGroupingOfRoundsEqualsCompress s [a, b] hs ho (by simp [ha, hb]) (by simpa using hsum)
  obtain ⟨u₂, hrun_a, hruns⟩ := runRounds_cons hruns
  obtain ⟨_, hrun_b, hruns⟩ := runRounds_cons hruns
  cases hruns
  exact ⟨u₁, u₂, u₃, u, hbegin, hrun_a, hrun_b, hfinish, hcompress⟩

end Sys2Proof.Safety
end

section
/-! SUPPORT. What the sink receives from each step (42_compression.md R111). -/

namespace Sys2Proof.Machine

open Sys2Proof.Safety

/-- R111: a round with TRACE_EN = 1 emits its record. -/
theorem microStep_round_trace {s u : State} (h : microStep .round s = .next u) : u.trace =
    if s.engine.traceEn then s.trace ++ [⟨s.engine.blkcnt, s.engine.t, u.engine.work⟩] else s.trace := by
  simp only [microStep, microRound] at h
  split_ifs at h
  cases h
  rw [roundStep_trace, roundStep_engine]

/-- R111: no other micro-step emits. -/
theorem microStep_trace_of_ne_round {m : MicroStep} {s u : State} (hm : m ≠ .round) (h : microStep m s = .next u) :
    u.trace = s.trace := by
  cases m with
  | round => exact absurd rfl hm
  | _ => cases h; rfl

/-- R111: no host write emits. -/
theorem memWrite_trace {off : BitVec 10} {n : Nat} {v : Word} {s u : State} (h : memWrite off n v s = .next u) :
    u.trace = s.trace := by
  obtain ⟨c, rfl⟩ | ⟨-, -, r, -, hw⟩ := memWrite_next h
  · rfl
  · obtain ⟨c, rfl⟩ | ⟨-, rfl⟩ | ⟨-, rfl⟩ | ⟨-, i, -, -, -, rfl⟩ | ⟨-, rfl⟩ | ⟨i, -, -, rfl⟩ | ⟨i, -, rfl⟩ | ⟨-, rfl⟩ |
      ⟨-, rfl⟩ | ⟨-, rfl⟩ := writeReg_next hw
    all_goals rfl

/-- A step that the agenda gives to the host or the platform performs no micro-step. -/
theorem not_performs_of_agenda {s : State} {ev : Event} {rest : List Event} (h : s.agenda = ev :: rest)
    (hev : ev ≠ .engine) (m : MicroStep) : ¬ Performs m s := by
  rintro ⟨hnil | ⟨rest', hcons⟩, -⟩
  · rw [h] at hnil; cases hnil
  · rw [h] at hcons; cases hcons; exact hev rfl

/-- R111: a step is a round, which emits as TRACE_EN says, or it leaves the sink's list as it is. -/
theorem step_trace {s u : State} (h : step s = .next u) :
    (Performs .round s ∧ u.trace =
      if s.engine.traceEn then s.trace ++ [⟨s.engine.blkcnt, s.engine.t, u.engine.work⟩] else s.trace) ∨
    (¬ Performs .round s ∧ u.trace = s.trace) := by
  obtain ⟨rest, hturn, hagenda⟩ | ⟨off, n, rest, hagenda, rfl⟩ | ⟨off, n, v, rest, hagenda, hw⟩ |
    ⟨rest, hagenda, rfl⟩ := step_next h
  · have hmoves : EngineMoves s := hagenda.imp And.left fun ha => ⟨rest, ha⟩
    obtain ⟨hpend, rfl⟩ | ⟨op, m, later, v, hpend, hm, rfl⟩ := engineTurn_next hturn
    · refine .inr ⟨fun ⟨_, _, _, hp⟩ => ?_, rfl⟩
      cases hpend.symm.trans hp
    · rw [retire_trace, retire_engine]
      by_cases hround : m = .round
      · subst hround
        exact .inl ⟨⟨hmoves, op, later, hpend⟩, (microStep_round_trace hm :)⟩
      · refine .inr ⟨fun ⟨_, _, _, hp⟩ => ?_, (microStep_trace_of_ne_round hround hm :)⟩
        cases hpend.symm.trans hp
        exact hround rfl
  · exact .inr ⟨not_performs_of_agenda hagenda (by simp) _, rfl⟩
  · exact .inr ⟨not_performs_of_agenda hagenda (by simp) _, (memWrite_trace hw :)⟩
  · exact .inr ⟨not_performs_of_agenda hagenda (by simp) _, rfl⟩

end Sys2Proof.Machine

namespace Sys2Proof.Safety

open Sys2Proof.Machine

/-- Settles O36: only an engine turn can emit, and only one whose micro-step is a round. -/
theorem traceRecordsEveryRound : Obligations.TraceRecordsEveryRound := by
  intro s u h
  obtain ⟨hround, htrace⟩ | ⟨hround, htrace⟩ := step_trace h
  · refine ⟨fun _ hen => by rw [htrace, if_pos hen], fun hnot => ?_⟩
    rw [htrace, if_neg fun hen => hnot ⟨hround, hen⟩]
  · exact ⟨fun hr => absurd hr hround, fun _ => htrace⟩

end Sys2Proof.Safety
end

section
/-! SUPPORT. The host's byte layouts (43_host_protocol.md R126 to R130): the padding's length field is big-endian, and
the digest takes words apart as packing put them together. -/

namespace Sys2Proof.Machine

/-- R127: the first `k` bytes of `be64(n)` are the upper `8k` of its 64 bits; each byte brings the next 8. -/
theorem foldl_take_be64 {n : Nat} (hn : n < 2 ^ 64) {k : Nat} (hk : k ≤ 8) :
    ((be64 n).take k).foldl (fun acc b => 256 * acc + b.toNat) 0 = n / 2 ^ (64 - 8 * k) := by
  induction k with
  | zero => exact (Nat.div_eq_of_lt hn).symm
  | succ k ih =>
    have hexp : 64 - 8 * k = (64 - 8 * (k + 1)) + 8 := by omega
    have hbyte : (be64 n).take (k + 1) = (be64 n).take k ++ [BitVec.ofNat 8 (n >>> (56 - 8 * k))] := by
      rw [List.take_add_one, be64, List.getElem?_map, List.getElem?_range (by omega)]
      rfl
    have hshift : 56 - 8 * k = 64 - 8 * (k + 1) := by omega
    rw [hbyte, List.foldl_concat, ih (by omega), BitVec.toNat_ofNat, Nat.shiftRight_eq_div_pow, hshift, hexp, pow_add,
      ← Nat.div_div_eq_div_mul]
    exact Nat.div_add_mod _ _

@[simp] theorem length_be64 (n : Nat) : (be64 n).length = 8 := by
  simp [be64]

/-- R127: read big-endian, `be64(n)` is n. -/
theorem foldl_be64 {n : Nat} (hn : n < 2 ^ 64) : (be64 n).foldl (fun acc b => 256 * acc + b.toNat) 0 = n := by
  have h := foldl_take_be64 hn le_rfl
  rwa [List.take_of_length_le (length_be64 n).le, Nat.sub_self, pow_zero, Nat.div_one] at h

/-- R127: what a padded message is. -/
theorem pad_eq_some {msg p : List Byte} (h : pad msg = some p) : 8 * msg.length < 2 ^ 64 ∧
    p = (msg ++ 0x80#8 :: List.replicate (padZeros msg.length) 0) ++ be64 (8 * msg.length) := by
  unfold pad at h
  split_ifs at h with hlen
  cases h
  exact ⟨hlen, by simp⟩

/-- R130: the digest's bytes of a packed word are the bytes packed. -/
theorem digestWords_packWord_cons (a b c d : Byte) (ws : List Word) :
    digestWords (packWord a b c d :: ws) = a :: b :: c :: d :: digestWords ws := by
  have ha : (packWord a b c d).extractLsb' 24 8 = a :=
    (BitVec.extractLsb'_append_eq_of_le (xlo := d) (by decide)).trans <|
      (BitVec.extractLsb'_append_eq_of_le (by decide)).trans BitVec.extractLsb'_append_eq_left
  have hb : (packWord a b c d).extractLsb' 16 8 = b :=
    (BitVec.extractLsb'_append_eq_of_le (xlo := d) (by decide)).trans <|
      (BitVec.extractLsb'_append_eq_of_le (by decide)).trans BitVec.extractLsb'_append_eq_right
  have hc : (packWord a b c d).extractLsb' 8 8 = c :=
    (BitVec.extractLsb'_append_eq_of_le (xlo := d) (by decide)).trans BitVec.extractLsb'_append_eq_right
  have hd : (packWord a b c d).extractLsb' 0 8 = d := BitVec.extractLsb'_append_eq_right
  simp [digestWords, ha, hb, hc, hd]

/-- R126: word `i` of the bytes, four to a word. -/
def packedWord (bytes : List Byte) (i : Nat) : Word :=
  packWord (bytes.getD (4 * i) 0) (bytes.getD (4 * i + 1) 0) (bytes.getD (4 * i + 2) 0) (bytes.getD (4 * i + 3) 0)

/-- R126, R130: packing and then taking the digest gives the bytes back, for any whole number of words. -/
theorem digestWords_packedWord {n : Nat} {bytes : List Byte} (h : bytes.length = 4 * n) :
    digestWords (List.ofFn fun i : Fin n => packedWord bytes i) = bytes := by
  induction n generalizing bytes with
  | zero => rw [List.length_eq_zero_iff.mp h]; rfl
  | succ n ih =>
    match bytes, h with
    | a :: b :: c :: d :: rest, h =>
      have hrest : rest.length = 4 * n := by simp only [List.length_cons] at h; omega
      rw [List.ofFn_succ]
      exact (digestWords_packWord_cons a b c d _).trans (congrArg (a :: b :: c :: d :: ·) (ih hrest))

end Sys2Proof.Machine

namespace Sys2Proof.Safety

open Sys2Proof.Machine

/-- Settles O57: the parts of a padded message, whose zeros make up the last block. -/
theorem paddedLengthContract : Obligations.PaddedLengthContract := by
  intro msg p h
  obtain ⟨hlen, rfl⟩ := pad_eq_some h
  have hz : padZeros msg.length = (119 - msg.length % 64) % 64 := rfl
  generalize padZeros msg.length = z at *
  have hfront : (msg ++ 0x80#8 :: List.replicate z 0).length = msg.length + 1 + z := by
    simp [Nat.add_assoc, Nat.add_comm 1]
  generalize hf : msg ++ 0x80#8 :: List.replicate z 0 = front at *
  have hcut : (front ++ be64 (8 * msg.length)).length - 8 = front.length := by simp
  rw [hcut, List.take_left, List.drop_left, List.length_append, length_be64, hfront]
  exact ⟨by omega, by omega, ⟨z, by omega, rfl, hf.symm⟩, foldl_be64 hlen⟩

/-- Settles O58: eight packed words. -/
theorem digestUndoesPacking : Obligations.DigestUndoesPacking := by
  intro bytes h
  rw [digest, Vector.toList_ofFn]
  exact digestWords_packedWord (n := 8) h

end Sys2Proof.Safety
end

section
/-! SUPPORT. The end of a run that the agenda gives (43_host_protocol.md R133). -/

namespace Sys2Proof.Safety

open Sys2Proof.Machine

/-- A run's first step and the rest of it. -/
theorem run_succ {k : Nat} {s u : State} (h : core.run (k + 1) s = .next u) :
    ∃ v, step s = .next v ∧ core.run k v = .next u := by
  simp only [Host.Core.run] at h
  split at h
  · rename_i v hv; exact ⟨v, hv, h⟩
  · cases h
  · cases h

theorem run_succ_of_step {s v : State} (k : Nat) (h : step s = .next v) : core.run (k + 1) s = core.run k v := by
  have h : core.step s = .next v := h
  simp only [Host.Core.run, h]

/-- Every state of a run from a state with the invariant has it. -/
theorem run_keepsInvariant {k : Nat} {s u : State} (hinv : SystemInv s) (h : core.run k s = .next u) : SystemInv u := by
  induction k generalizing s with
  | zero => cases h; exact hinv
  | succ k ih =>
    obtain ⟨v, hv, hrun⟩ := run_succ h
    exact ih (stepKeepsInvariant s v hinv hv) hrun

/-- R133: a run that has settled is not busy where it stands. -/
theorem not_busy_of_settledOver {k : Nat} {b : Bool} {s u : State} (hb : b = true → s.engine.busy = false)
    (h : core.run k s = .next u) (hset : settledOver k b s = true) : u.engine.busy = false := by
  induction k generalizing s b with
  | zero => cases h; exact hb hset
  | succ k ih =>
    obtain ⟨v, hv, hrun⟩ := run_succ h
    rw [settledOver_succ k b hv] at hset
    exact ih settledAfter_not_busy hrun hset

/-- R33.3: with BUSY = 0 the invariant leaves nothing pending. -/
theorem idle_of_not_busy {s : State} (hinv : SystemInv s) (hb : s.engine.busy = false) : Idle s.engine := by
  have hp := hinv.busy_iff
  rw [hb, eq_comm, Option.isSome_eq_false_iff, Option.isNone_iff_eq_none] at hp
  exact ⟨hb, hp⟩

section

variable {u : State} (hstep : step u = .next u) (hb : u.engine.busy = false)

include hstep hb

/-- R148: a state that steps to itself with BUSY = 0 settles nothing anew and unsettles nothing. -/
theorem settledOver_of_fixed (j : Nat) : settledOver j true u = true := by
  induction j with
  | zero => rfl
  | succ j ih => rw [settledOver_succ j true hstep]; simpa [settledAfter, hb] using ih

/-- R133: a run that has come to a fixed state, settled, goes on in it, settled. -/
theorem run_and_settledOver_add_of_fixed {k : Nat} {b : Bool} {s : State} (hrun : core.run k s = .next u)
    (hset : settledOver k b s = true) (j : Nat) :
    core.run (k + j) s = .next u ∧ settledOver (k + j) b s = true := by
  induction k generalizing s b with
  | zero =>
    cases hrun
    cases hset
    refine ⟨?_, by rw [Nat.zero_add]; exact settledOver_of_fixed hstep hb j⟩
    induction j with
    | zero => rfl
    | succ j ih => exact (run_succ_of_step _ hstep).trans ih
  | succ k ih =>
    obtain ⟨v, hv, hrun⟩ := run_succ hrun
    rw [settledOver_succ k b hv] at hset
    rw [Nat.succ_add, run_succ_of_step _ hv, settledOver_succ _ b hv]
    exact ih hrun hset

end

/-- Settles O59: where a run has settled nothing is pending, so with no host step left every further step answers the
same state. -/
theorem endedRunStays : Obligations.EndedRunStays := by
  intro k s u hinv ⟨hrun, hagenda, hset⟩
  have hidle : Idle u.engine :=
    idle_of_not_busy (run_keepsInvariant hinv hrun) (not_busy_of_settledOver (b := false) nofun hrun hset)
  have hstep : step u = .next u := (step_nil hagenda).trans (engineTurn_of_pend_none hidle.2)
  refine ⟨hidle, hstep, fun j => ⟨u, ?_, rfl⟩⟩
  obtain ⟨hrun', hset'⟩ := run_and_settledOver_add_of_fixed hstep hidle.1 hrun hset j
  exact ⟨hrun', hagenda, hset'⟩

end Sys2Proof.Safety
end

section
/-! SUPPORT. The end of a pending command (20_memory.md R56): the idle engine that engine turns alone lead to, whatever
else the host does meanwhile. -/

namespace Sys2Proof.Machine

open Sys2Proof.Safety

/-- R56: engine turns alone lead from a state to the idle engine `e`. -/
inductive EndsIn (e : Engine) : State → Prop
  | idle {s : State} (hs : Idle s.engine) (he : s.engine = e) : EndsIn e s
  | turn {s u : State} (hturn : engineTurn s = .next u) (hu : EndsIn e u) : EndsIn e s

theorem EndsIn.of_engineTurns {k : Nat} {s u : State} (h : engineTurns k s = .next u) (hu : Idle u.engine) :
    EndsIn u.engine s := by
  induction k generalizing s with
  | zero => cases h; exact .idle hu rfl
  | succ k ih =>
    rw [engineTurns] at h
    split at h
    · rename_i v hv; exact .turn hv (ih h)
    · cases h
    · cases h

/-- The end depends on the engine alone. -/
theorem EndsIn.congr {e : Engine} {s s' : State} (h : EndsIn e s) (hs : s'.engine = s.engine) : EndsIn e s' := by
  induction h generalizing s' with
  | idle hidle he => exact .idle (hs ▸ hidle) (hs.trans he)
  | turn hturn _ ih =>
    obtain ⟨u', hturn', hu'⟩ := engineTurn_engine hturn s' hs
    exact .turn hturn' (ih hu')

/-- An engine with nothing pending is at its end. -/
theorem EndsIn.engine_eq {e : Engine} {s : State} (h : EndsIn e s) (hp : s.engine.pend = none) : s.engine = e := by
  induction h with
  | idle _ he => exact he
  | turn hturn _ ih =>
    rw [engineTurn_of_pend_none hp] at hturn
    cases hturn
    exact ih hp

/-- An engine turn on the way is answered and keeps the end. -/
theorem EndsIn.engineTurn {e : Engine} {s : State} (h : EndsIn e s) :
    ∃ u, engineTurn s = .next u ∧ EndsIn e u := by
  cases h with
  | idle hs he => exact ⟨s, engineTurn_of_pend_none hs.2, .idle hs he⟩
  | turn hturn hu => exact ⟨_, hturn, hu⟩

/-- R139, R56: an accepted command ends where its micro-steps lead. -/
theorem EndsIn.of_performed {i : Instr} {s u : State} (hs : Idle s.engine) (hc : acceptanceCheck s.engine i = none)
    (h : Performed (microSteps i) s u) : EndsIn u.engine (accept i (microSteps i) s) :=
  .of_engineTurns (engineTurns_accept_all i hs (microSteps_ne_nil hc) h) (h.idle hs)

/-- R138: no micro-step raises, so a command ends with ERR as it was. -/
theorem EndsIn.err_eq {e : Engine} {s : State} (h : EndsIn e s) : e.err = s.engine.err := by
  induction h with
  | idle _ he => rw [he]
  | turn hturn _ ih =>
    rw [ih]
    obtain ⟨-, rfl⟩ | ⟨op, m, later, v, -, hm, rfl⟩ := engineTurn_next hturn
    · rfl
    · have he := microStep_effect hm
      rw [retire_engine]
      generalize v.engine = f at *
      cases he <;> rfl

/-- What a host write to an idle engine `e` comes to once the engine is idle again (R45, R139): the register's own
write, or all of an accepted command. -/
inductive WriteEnds (e : Engine) : Reg → Word → Engine → Prop
  | register {r : Reg} {v : Word} {e' : Engine} (hr : r ≠ .cmd) (h : WriteEffect e r v e') : WriteEnds e r v e'
  | command {v : Word} {i : Instr} {e' : Engine} (hv : decode v = .ok i) (hc : acceptanceCheck e i = none)
      (h : ∀ s : State, s.engine = e → ∃ u, Performed (microSteps i) s u ∧ u.engine = e') :
      WriteEnds e .cmd v e'

/-- A register other than CMD takes the write, in the host's step. -/
theorem WriteEffect.writeReg_eq {s : State} {r : Reg} {v : Word} {e : Engine} (h : WriteEffect s.engine r v e)
    (hr : r ≠ .cmd) : writeReg r v s = .next (s.withEngine e) := by
  cases h with
  | cmd => exact absurd rfl hr
  | cv i _ ho => exact writeReg_cv_of_closed s ho i v
  | _ => rfl

/-- R21: only CMD writes BUSY and PEND. -/
theorem WriteEffect.idle {r : Reg} {v : Word} {e e' : Engine} (h : WriteEffect e r v e') (hr : r ≠ .cmd)
    (he : Idle e) : Idle e' := by
  cases h with
  | cmd => exact absurd rfl hr
  | _ => exact he

/-- The host's step of such a write, which leaves BUSY = 0 where it is no command. -/
theorem WriteEnds.writeReg {s : State} {r : Reg} {v : Word} {e : Engine} (h : WriteEnds s.engine r v e)
    (hs : Idle s.engine) :
    ∃ u, writeReg r v s = .next u ∧ EndsIn e u ∧ (r ≠ .cmd → u.engine.busy = false) := by
  cases h with
  | register hr heff =>
    have he : Idle e := heff.idle hr hs
    exact ⟨_, heff.writeReg_eq hr, .idle he rfl, fun _ => he.1⟩
  | @command _ i _ hv hc h =>
    obtain ⟨u, hu, rfl⟩ := h s rfl
    refine ⟨accept i (microSteps i) s, ?_, .of_performed hs hc hu, fun hr => absurd rfl hr⟩
    simp only [Machine.writeReg, acceptWord, hv]
    exact exec_of_not_busy hs.1 hc

end Sys2Proof.Machine
end

section
/-! SUPPORT. What a host program computes when it waits for every command it issues (30_encoding.md R71;
43_host_protocol.md R133), and that its run beside the engine comes to just that under every schedule
(20_memory.md R56). -/

namespace Sys2Proof.Machine

open Sys2Proof.Safety

variable {α : Type} {post : α → Engine → Prop}

/-- The program's next access is WAIT's. -/
def HostProgram.waits : HostProgram α → Bool
  | .wait _ => true
  | .done _ | .wr _ _ _ | .rd _ _ => false

/-- The program's accesses one by one, from the idle engine `e` or from one whose pending command ends in `e`, are all
taken, a WAIT follows every command, and the program stops with a result and an idle engine that `post` holds of. -/
def HostProgram.Meets (post : α → Engine → Prop) : HostProgram α → Engine → Prop
  | .done a, e => post a e
  | .wr r v next, e => ∃ e', WriteEnds e r v e' ∧ (r = .cmd → next.waits = true) ∧ next.Meets post e'
  | .rd r next, e => (next (readReg e r)).Meets post e
  | .wait next, e => next.Meets post e

/-- A run on its way to `post`: the engine's pending command ends where the program's next access expects it, and the
program waits for it unless the host has read BUSY = 0 (R133). -/
structure OnTrack (post : α → Engine → Prop) (r : HostRun α) : Prop where
  inv : SystemInv r.system
  not_busy : r.settled = true → r.system.engine.busy = false
  ready : r.program.waits = true ∨ r.settled = true
  meets : ∃ e, EndsIn e r.system ∧ r.program.Meets post e

theorem OnTrack.start {p : HostProgram α} {s : State} {e : Engine} (hinv : SystemInv s) (hp : p.waits = true)
    (he : EndsIn e s) (h : p.Meets post e) : OnTrack post (.start p s) :=
  ⟨hinv, nofun, .inl hp, e, he, h⟩

/-- A settled run's engine is the one the program expects. -/
theorem OnTrack.settled_meets {r : HostRun α} (h : OnTrack post r) (hs : r.settled = true) :
    Idle r.system.engine ∧ r.program.Meets post r.system.engine := by
  obtain ⟨e, he, hm⟩ := h.meets
  have hidle := idle_of_not_busy h.inv (h.not_busy hs)
  rw [he.engine_eq hidle.2]
  exact ⟨he.engine_eq hidle.2 ▸ hidle, hm⟩

/-- A step of the machine that leaves the run on its way, `p` being what is left of the program. -/
theorem OnTrack.take {r : HostRun α} (h : OnTrack post r) {ev : Event} {p : HostProgram α} {u : State} {e : Engine}
    (hstep : step (r.system.withAgenda [ev]) = .next u)
    (hready : p.waits = true ∨ settledAfter ev u r.settled = true) (he : EndsIn e u) (hp : p.Meets post e) :
    ∃ q, r.take ev p = .next q ∧ OnTrack post q := by
  refine ⟨⟨p, u, settledAfter ev u r.settled⟩, by simp [HostRun.take, hstep], ?_⟩
  exact ⟨stepKeepsInvariant (r.system.withAgenda [ev]) u h.inv hstep, settledAfter_not_busy, hready, e, he, hp⟩

/-- R133: a settled run stays so while BUSY = 0. -/
theorem settledAfter_of_settled {ev : Event} {u : State} {b : Bool} (hb : b = true) (hu : u.engine.busy = false) :
    settledAfter ev u b = true := by
  simp [settledAfter, hb, hu]

theorem OnTrack.move_engine {r : HostRun α} (h : OnTrack post r) :
    ∃ q, r.move .engine = .next q ∧ OnTrack post q := by
  obtain ⟨e, he, hp⟩ := h.meets
  obtain ⟨u, hturn, hu⟩ := (he.congr (s' := r.system.withAgenda []) rfl).engineTurn
  refine h.take ((step_engine r.system).trans hturn) (h.ready.imp_right fun hs => ?_) hu hp
  have hidle := idle_of_not_busy h.inv (h.not_busy hs)
  rw [engineTurn_of_pend_none (s := r.system.withAgenda []) hidle.2] at hturn
  cases hturn
  exact settledAfter_of_settled hs hidle.1

/-- R24: bit 0 of STATUS is BUSY. -/
theorem getLsbD_statusWord_zero (e : Engine) : (statusWord e).getLsbD 0 = e.busy := by
  rw [statusWord]; cases e.busy <;> cases e.isOpen <;> rfl

theorem wordRead_hostRd (e : Engine) (r : Reg) : wordRead e (hostRd r) = readReg e r := memRead_offsetOf e r

/-- R71: what is left of WAIT after its read of STATUS. -/
theorem rest_wait (e : Engine) (next : HostProgram α) :
    (HostProgram.wait next).rest (wordRead e (hostRd .status)) = if e.busy then .wait next else next := by
  rw [wordRead_hostRd, HostProgram.rest, readReg, getLsbD_statusWord_zero]

theorem OnTrack.move_host {r : HostRun α} (h : OnTrack post r) : ∃ q, r.move .host = .next q ∧ OnTrack post q := by
  obtain ⟨program, s, settled⟩ := r
  cases program with
  | done a => exact ⟨_, rfl, h⟩
  | wr r v next =>
    have hset : settled = true := by simpa [HostProgram.waits] using h.ready
    obtain ⟨hidle, e, hw, hwaits, hp⟩ := h.settled_meets hset
    obtain ⟨u, hwrite, hu, hbusy⟩ := WriteEnds.writeReg (s := s.withAgenda []) hw hidle
    refine h.take ((step_write (s := s.withAgenda [hostWr r v]) r hidle.1 rfl).trans hwrite) ?_ hu hp
    by_cases hr : r = .cmd
    · exact .inl (hwaits hr)
    · exact .inr (settledAfter_of_settled hset (hbusy hr))
  | rd r next =>
    have hset : settled = true := by simpa [HostProgram.waits] using h.ready
    obtain ⟨hidle, hp⟩ := h.settled_meets hset
    refine h.take (step_read s r) (.inr (settledAfter_of_settled hset hidle.1)) (.idle hidle rfl) ?_
    rw [wordRead_hostRd]
    exact hp
  | wait next =>
    obtain ⟨e, he, hp⟩ := h.meets
    refine h.take (e := e) (step_read s .status) ?_ (he.congr rfl) ?_ <;> rw [rest_wait]
    · cases hb : s.engine.busy with
      | true => exact .inl rfl
      | false => exact .inr (by simpa [settledAfter, hostRead] using hb)
    · split <;> exact hp

theorem OnTrack.move {r : HostRun α} (h : OnTrack post r) : ∀ a, ∃ q, r.move a = .next q ∧ OnTrack post q
  | .host => h.move_host
  | .engine => h.move_engine

/-- R56: under every schedule the run is never stopped and stays on its way. -/
theorem OnTrack.moves {r : HostRun α} (h : OnTrack post r) (l : List Agent) :
    ∃ q, r.moves l = .next q ∧ OnTrack post q := by
  induction l generalizing r with
  | nil => exact ⟨r, rfl, h⟩
  | cons a l ih =>
    obtain ⟨q, hmove, hq⟩ := h.move a
    rw [moves_cons l hmove]
    exact ih hq

/-- R133: where the program has stopped, the run has ended, with `post`. -/
theorem OnTrack.ended_of_done {r : HostRun α} (h : OnTrack post r) {d : α} (hd : r.program = .done d) :
    r.ended = true ∧ Idle r.system.engine ∧ post d r.system.engine := by
  have hset : r.settled = true := by simpa [hd, HostProgram.waits] using h.ready
  obtain ⟨hidle, hp⟩ := h.settled_meets hset
  rw [hd] at hp
  exact ⟨by simp [HostRun.ended, hd, hset], hidle, hp⟩

/-- R160: the engine's moves bring a run to BUSY = 0 and take nothing from its program. -/
theorem OnTrack.exists_not_busy {e : Engine} {s : State} (hs : EndsIn e s) {r : HostRun α} (h : OnTrack post r)
    (hr : r.system.engine = s.engine) : ∃ l q, r.moves l = .next q ∧ OnTrack post q ∧ q.program = r.program ∧
      q.system.engine.busy = false := by
  induction hs generalizing r with
  | idle hidle _ => exact ⟨[], r, rfl, h, rfl, hr ▸ hidle.1⟩
  | turn hturn _ ih =>
    obtain ⟨q, hmove, hq⟩ := h.move_engine
    obtain ⟨u, hstep, rfl⟩ := take_next hmove
    obtain ⟨u', hturn', hu'⟩ := engineTurn_engine hturn (r.system.withAgenda []) hr
    rw [step_engine, hturn'] at hstep
    cases hstep
    obtain ⟨l, q', hmoves, hq'⟩ := ih hq hu'
    exact ⟨.engine :: l, q', (moves_cons l hmove).trans hmoves, hq'⟩

/-- Some schedule brings the run's program to its end. -/
def HostRun.CanStop (r : HostRun α) : Prop := ∃ l q d, r.moves l = .next q ∧ q.program = .done d

theorem HostRun.CanStop.of_moves {r q : HostRun α} {l : List Agent} (h : r.moves l = .next q) (hq : q.CanStop) :
    r.CanStop := by
  obtain ⟨m, hm⟩ := hq
  exact ⟨l ++ m, by rwa [moves_append m h]⟩

/-- A host's move leaves the rest of the program. -/
theorem program_of_move_host {r q : HostRun α} {ev : Event} (h : r.move .host = .next q)
    (hev : r.program.access = some ev) : q.program = r.program.rest (wordRead r.system.engine ev) := by
  simp only [HostRun.move, hev] at h
  obtain ⟨u, -, rfl⟩ := take_next h
  rfl

/-- A run on its way can be brought to its end when it can be after the program's next access. -/
theorem OnTrack.canStop_of_access {r : HostRun α} (h : OnTrack post r) {ev : Event}
    (hev : r.program.access = some ev)
    (hrest : ∀ q, OnTrack post q → q.program = r.program.rest (wordRead r.system.engine ev) → q.CanStop) :
    r.CanStop := by
  obtain ⟨q, hmove, hq⟩ := h.move_host
  exact .of_moves (moves_cons [] hmove) (hrest q hq (program_of_move_host hmove hev))

/-- R161: a run on its way can be brought to its end: with BUSY = 0 each move of the host is one access on. -/
theorem OnTrack.canStop {r : HostRun α} (h : OnTrack post r) : r.CanStop := by
  generalize hp : r.program = p
  induction p generalizing r with
  | done d => exact ⟨[], r, d, rfl, hp⟩
  | wr _ _ next ih => exact h.canStop_of_access (by rw [hp]; rfl) fun q hq hrest => ih hq (by rw [hrest, hp]; rfl)
  | rd _ next ih => exact h.canStop_of_access (by rw [hp]; rfl) fun q hq hrest => ih _ hq (by rw [hrest, hp]; rfl)
  | wait next ih =>
    obtain ⟨e, he, -⟩ := h.meets
    obtain ⟨l, q, hmoves, hq, hqp, hbusy⟩ := h.exists_not_busy he rfl
    refine .of_moves hmoves (hq.canStop_of_access (by rw [hqp, hp]; rfl) fun q' hq' hrest => ih hq' ?_)
    rw [hrest, hqp, hp, rest_wait, hbusy]
    rfl

end Sys2Proof.Machine
end

section
/-! SUPPORT. `compress_all` as a host program (43_host_protocol.md R129): what each of its parts makes of an idle
engine. -/

namespace Sys2Proof.Machine

open Sys2Proof.Safety

section

variable {α : Type} {post : α → Engine → Prop}

/-- R70, R71: a command that the engine accepts, waited for. -/
theorem meets_hostCmd {i : Instr} {e e' : Engine} {next : HostProgram α} (hi : i.WellFormed)
    (hc : acceptanceCheck e i = none)
    (h : ∀ s : State, s.engine = e → ∃ u, Performed (microSteps i) s u ∧ u.engine = e')
    (hnext : next.Meets post e') :
    (hostCmd i (.wait next)).Meets post e :=
  ⟨e', .command (decode_encode hi) hc h, fun _ => rfl, hnext⟩

/-- R71: writes of the message words in any order leave M holding them, once the others do. -/
theorem meets_writeAll_m (ws : Vector Word 16) {next : HostProgram α} {e : Engine}
    (hnext : next.Meets post { e with m := ws }) (l : List (Fin 16)) {m : Vector Word 16}
    (hm : ∀ j : Fin 16, j ∉ l → wordAt m j = wordAt ws j) :
    (writeAll (l.map fun i => (.m i, wordAt ws i)) next).Meets post { e with m := m } := by
  induction l generalizing m with
  | nil =>
    have hws : m = ws := vector_ext_wordAt fun j hj => hm ⟨j, hj⟩ List.not_mem_nil
    exact hws ▸ hnext
  | cons i l ih =>
    refine ⟨_, .register nofun (.m i (wordAt ws i)), nofun, ih fun j hj => ?_⟩
    rw [wordAt_set]
    split_ifs with hij
    · rw [hij.1]
    · exact hm j (List.not_mem_cons_of_ne_of_not_mem (fun h => hij ⟨congrArg Fin.val h.symm, j.isLt⟩) hj)

/-- R71: LOADM leaves M holding the words. -/
theorem meets_loadM {ws : Vector Word 16} {next : HostProgram α} {e : Engine}
    (hnext : next.Meets post { e with m := ws }) : (loadM ws next).Meets post e :=
  meets_writeAll_m ws hnext _ fun j hj => absurd (List.mem_finRange j) hj

/-- R71: reads in order give what each register reads as. -/
theorem meets_readAll {rs : List Reg} {k : List Word → HostProgram α} {e : Engine}
    (h : (k (rs.map (readReg e))).Meets post e) : (readAll rs k).Meets post e := by
  induction rs generalizing k with
  | nil => exact h
  | cons r rs ih => exact ih h

/-- R71: RDCV gives CV's words. -/
theorem meets_readCV {k : List Word → HostProgram α} {e : Engine} (h : (k e.cv.toList).Meets post e) :
    (readCV k).Meets post e := by
  refine meets_readAll ?_
  have hcv : ((List.finRange 8).map .cv).map (readReg e) = e.cv.toList := by
    refine List.ext_getElem (by simp) fun j _ h => ?_
    have hj : j < 8 := by simpa using h
    simpa [readReg] using wordAt_of_lt e.cv hj
  rwa [hcv]

end

/-- R113: an engine that has compressed the block in M. -/
def compressedEngine (e : Engine) : Engine :=
  { e with
    cv := compressFn e.cv e.m
    work := rounds (expand e.m) (Working.ofVector e.cv) 0 64
    w := expand e.m
    t := 64
    blkcnt := e.blkcnt + 1 }

/-- R110, R113: COMPRESS's micro-steps compress the block in M. -/
theorem exists_performed_compress {s : State} (ho : s.engine.isOpen = false) :
    ∃ u, Performed (microSteps .compress) s u ∧ u.engine = compressedEngine s.engine := by
  obtain ⟨v, hv, hdone⟩ := exists_performed_begin_rounds s le_rfl
  exact ⟨microFinish v, hv.append (.single rfl), microFinish_engine_of_roundsDone ho hdone⟩

/-- Between blocks of R129: the engine is idle with no block open, CV the chain so far, BLKCNT the number of blocks, and
ERR as it was. -/
structure Chained (err : BitVec 5) (cv : Vector Word 8) (n : Nat) (e : Engine) : Prop where
  idle : Idle e
  closed : e.isOpen = false
  err_eq : e.err = err
  cv_eq : e.cv = cv
  blkcnt_eq : e.blkcnt = BitVec.ofNat 32 n

section

variable {α : Type} {post : α → Engine → Prop} {err : BitVec 5} {cv : Vector Word 8} {n : Nat} {e : Engine}
  {next : HostProgram α}

/-- R107: INIT starts the chain. -/
theorem meets_init (hidle : Idle e) (ho : e.isOpen = false)
    (hnext : ∀ e', Chained e.err initialValue 0 e' → next.Meets post e') :
    (hostCmd .init (.wait next)).Meets post e := by
  have hend : Chained e.err initialValue 0 { e with cv := initialValue, blkcnt := 0 } := ⟨hidle, ho, rfl, rfl, rfl⟩
  refine meets_hostCmd rfl (needsClosed_of_closed ho) (fun s hs => ?_) (hnext _ hend)
  exact ⟨microInit s, .single rfl, by rw [← hs]; rfl⟩

/-- R71, R110, R113: HASHBLK folds one block into the chain. -/
theorem meets_hashBlock (h : Chained err cv n e) (ws : Vector Word 16)
    (hnext : ∀ e', Chained err (compressFn cv ws) (n + 1) e' → next.Meets post e') :
    (hashBlock ws next).Meets post e := by
  obtain ⟨hidle, ho, herr, rfl, hblk⟩ := h
  have hend : Chained err (compressFn e.cv ws) (n + 1) (compressedEngine { e with m := ws }) :=
    ⟨hidle, ho, herr, rfl, by rw [BitVec.ofNat_add, ← hblk]; rfl⟩
  refine meets_loadM (meets_hostCmd rfl (needsClosed_of_closed ho) (fun s hs => ?_) (hnext _ hend))
  rw [← hs]
  exact exists_performed_compress (by rw [hs]; exact ho)

/-- R129, R113: the blocks in order fold to the chain over them. -/
theorem meets_hashBlocks (ms : List (Vector Word 16)) (h : Chained err cv n e)
    (hnext : ∀ e', Chained err (compressBlocks cv ms) (n + ms.length) e' → next.Meets post e') :
    (hashBlocks ms next).Meets post e := by
  induction ms generalizing cv n e with
  | nil => exact hnext e h
  | cons m ms ih =>
    refine meets_hashBlock h m fun e' h' => ih h' fun e'' h'' => hnext e'' ?_
    rwa [Nat.add_right_comm] at h''

end

/-- R129: as many blocks as are asked for. -/
@[simp] theorem length_blocksOf (k : Nat) (p : List Byte) : (blocksOf k p).length = k := by
  induction k generalizing p with
  | zero => rfl
  | succ k ih => simp [blocksOf, ih]

/-- What `compress_all` on a padded message ends in (R129). -/
def CompressedAll (err : BitVec 5) (p : List Byte) (d : List Byte) (e : Engine) : Prop :=
  d = digest (compressBlocks initialValue (messageBlocks p)) ∧
  Chained err (compressBlocks initialValue (messageBlocks p)) (p.length / 64) e

/-- R129: the whole program, from an idle engine with no block open. -/
theorem meets_compressAll {p : List Byte} {e : Engine} (hidle : Idle e) (ho : e.isOpen = false) :
    HostProgram.Meets (CompressedAll e.err p) (.wait (hostCmd .init (.wait (hashBlocks (messageBlocks p)
      (readCV fun cs => .done (digestWords cs)))))) e := by
  refine meets_init hidle ho fun e₁ h₁ => meets_hashBlocks _ h₁ fun e₂ h₂ => meets_readCV ?_
  rw [messageBlocks, length_blocksOf, Nat.zero_add] at h₂
  exact ⟨by rw [h₂.cv_eq]; rfl, h₂⟩

theorem compressAll_of_pad {msg p : List Byte} (h : pad msg = some p) :
    compressAll msg = some (digest (compressBlocks initialValue (messageBlocks p))) := by
  rw [compressAll, h]; rfl

end Sys2Proof.Machine

namespace Sys2Proof.Safety

open Sys2Proof.Machine

/-- Settles O60: the program's parts are what R129 says on an idle engine, and its run keeps to that under every
schedule, since it waits for every command. -/
theorem compressAllRunsOnTheEngine : Obligations.CompressAllRunsOnTheEngine := by
  rintro msg p prog s hpad hprog hinv ⟨k, u, hturns, hidle, ho⟩ schedule
  rw [compressAllProgram, hpad] at hprog
  cases hprog
  have hend : EndsIn u.engine s := .of_engineTurns hturns hidle
  obtain ⟨r, hmoves, hr⟩ := (OnTrack.start hinv rfl hend (meets_compressAll hidle ho)).moves schedule
  refine ⟨r, hmoves, hr.canStop, fun d hd => ?_⟩
  obtain ⟨hended, -, rfl, hchain⟩ := hr.ended_of_done hd
  exact ⟨compressAll_of_pad hpad, hended, hchain.cv_eq, hchain.blkcnt_eq, hchain.closed, hchain.idle,
    hchain.err_eq.trans hend.err_eq⟩

end Sys2Proof.Safety
end

section
/-! SUPPORT. The checks of a host write in their order (60_exceptions.md R140, R139), and the ERR bits that a write and
a step change (10_state.md R26; 60_exceptions.md R138, R141). -/

namespace Sys2Proof.Machine

open Sys2Proof.Safety

/-! ## The checks of a write -/

/-- R140, check 1: the shape. -/
theorem memWrite_of_not_legalShape {off : BitVec 10} {n : Nat} (v : Word) (s : State)
    (h : n ≠ 4 ∨ off.toNat % 4 ≠ 0) : memWrite off n v s = .next (raise .access s) := by
  have hshape : legalShape off n = false := by rw [← Bool.not_eq_true, legalShape_iff]; tauto
  simp [memWrite, hshape]

/-- R140, check 2: BUSY, in the legal shape. -/
theorem memWrite_of_busy {off : BitVec 10} (v : Word) {s : State} (ha : off.toNat % 4 = 0)
    (hbusy : s.engine.busy = true) : memWrite off 4 v s = .next (raise .busy s) := by
  simp [memWrite, legalShape_iff.mpr ⟨rfl, ha⟩, hbusy]

/-- R140, check 3: an offset with no register, or with a register that the host may only read. A writable register's
offset is none of those listed. -/
theorem memWrite_of_not_writable {off : BitVec 10} (v : Word) {s : State} (ha : off.toNat % 4 = 0)
    (hbusy : s.engine.busy = false)
    (h : off.toNat = 0x004 ∨ off.toNat = 0x010 ∨ off.toNat = 0x018 ∨ off.toNat = 0x01C ∨
      (0x040 ≤ off.toNat ∧ off.toNat < 0x080) ∨ 0x0CC ≤ off.toNat) :
    memWrite off 4 v s = .next (raise .access s) := by
  simp only [memWrite, legalShape_iff.mpr ⟨rfl, ha⟩, hbusy]
  cases hr : regAt off with
  | none => rfl
  | some r =>
    have hoff : off.toNat = 4 * indexOf r := offsetOf_of_regAt ha hr ▸ toNat_offsetOf r
    cases r with
    | status | round | work | pres | w | k | iv => rfl
    | ctrl | err | cmd | blkcnt | cv | m | opx | opy | opz => simp only [indexOf] at hoff; omega

/-- R42: the offsets of CV[0..7]. -/
theorem exists_offsetOf_cv {off : BitVec 10} (ha : off.toNat % 4 = 0) (hlo : 0x020 ≤ off.toNat)
    (hhi : off.toNat < 0x040) : ∃ i, offsetOf (.cv i) = off := by
  refine ⟨⟨off.toNat / 4 - 8, by omega⟩, BitVec.eq_of_toNat_eq ?_⟩
  simp only [toNat_offsetOf, indexOf]
  omega

/-- R140, check 4: CVi while a block is open (R47). -/
theorem writeReg_cv_of_open (s : State) (hopen : s.engine.isOpen = true) (i : Fin 8) (v : Word) :
    writeReg (.cv i) v s = .next (raise .sequence s) := if_pos hopen

/-- R139: an illegal word. -/
theorem acceptWord_of_error {v : Word} {r : Illegal} (h : decode v = .error r) (s : State) :
    acceptWord v s = .next (raise .illegal s) := by
  simp [acceptWord, h]

/-- R139: a legal word is its command's acceptance. -/
theorem acceptWord_of_ok {v : Word} {i : Instr} (h : decode v = .ok i) (s : State) : acceptWord v s = exec i s := by
  simp [acceptWord, h]

/-- R139: INIT, BEGIN and COMPRESS have one condition. -/
theorem acceptanceCheck_eq_needsClosed {i : Instr} (h : i = .init ∨ i = .begin ∨ i = .compress) (e : Engine) :
    acceptanceCheck e i = needsClosed e := by
  obtain rfl | rfl | rfl := h <;> rfl

/-- R139: the conditions under which a command has none of its own errors. -/
theorem acceptanceCheck_eq_none {e : Engine} {i : Instr}
    (hclosed : i = .init ∨ i = .begin ∨ i = .compress → e.isOpen = false)
    (hround : ∀ n, i = .round n → e.isOpen = true ∧ 1 ≤ n ∧ e.t + n ≤ 64)
    (hfinish : i = .finish → e.isOpen = true ∧ e.t = 64) : acceptanceCheck e i = none := by
  cases i with
  | init | begin | compress => exact needsClosed_of_closed (hclosed (by simp))
  | round n =>
    obtain ⟨hopen, h1, h64⟩ := hround n rfl
    exact needsRounds_eq_none hopen h1 h64
  | finish =>
    obtain ⟨hopen, ht⟩ := hfinish rfl
    exact needsComplete_eq_none hopen ht
  | _ => rfl

/-! ## The ERR bits -/

/-- R138: raising an error keeps every ERR bit that is set. -/
theorem getLsbD_setError (c : ErrorCode) {err : BitVec 5} {k : Nat} (h : err.getLsbD k = true) :
    (setError c err).getLsbD k = true := by
  simp [setError, h]

/-- R26: a bit that a write to ERR clears is 1 in the value written. -/
theorem getLsbD_of_clearErrors {v : Word} {err : BitVec 5} {k : Nat} (h : err.getLsbD k = true)
    (hclear : (clearErrors v err).getLsbD k = false) : v.getLsbD k = true := by
  have hk : k < 5 := BitVec.lt_of_getLsbD h
  simpa [clearErrors, h, hk] using hclear

/-- R138: no micro-step raises. -/
theorem MicroEffect.err_eq {e e' : Engine} {m : MicroStep} (h : MicroEffect e m e') : e'.err = e.err := by
  cases h <;> rfl

/-- R26: a write that a register other than ERR takes leaves ERR. -/
theorem WriteEffect.err_eq {e e' : Engine} {r : Reg} {v : Word} (h : WriteEffect e r v e') (hr : r ≠ .err) :
    e'.err = e.err := by
  cases h with
  | err => exact absurd rfl hr
  | _ => rfl

end Sys2Proof.Machine
end

section
/-! SUPPORT. From a state with the invariant no agent's step stops the machine (60_exceptions.md R142, R138). -/

namespace Sys2Proof.Safety

open Sys2Proof.Machine

/-- R105: the round is the only micro-step that needs anything of the state. -/
theorem microStep_answers {m : MicroStep} {s : State} (h : m = .round → s.engine.t < 64) :
    ∃ u, microStep m s = .next u := by
  cases m with
  | round => exact ⟨_, if_pos (h rfl)⟩
  | _ => exact ⟨_, rfl⟩

/-- R56: a command still pending has a micro-step left. -/
theorem PendingOk.remaining_ne_nil {e : Engine} {p : Pending} (h : PendingOk e p) : p.remaining ≠ [] := by
  obtain ⟨op, l⟩ := p
  rintro rfl
  cases op <;> simp [PendingOk] at h

/-- R104, R110: where a round is the next micro-step of a pending command, T is below 64. -/
theorem PendingOk.t_lt_of_round {e : Engine} {op : Instr} {later : List MicroStep}
    (h : PendingOk e ⟨op, .round :: later⟩) : e.t < 64 := by
  cases op with
  | round n =>
    obtain ⟨-, -, -, -, ht⟩ := h
    simp only [List.length_cons] at ht
    omega
  | compress =>
    obtain ⟨hbegin, -⟩ | ⟨hrest, -⟩ := h
    · cases hbegin
    · by_contra hge
      rw [Nat.sub_eq_zero_of_le (by omega)] at hrest
      cases hrest
  | _ => simp [PendingOk] at h

/-- R142: an engine turn from a state with the invariant is answered. -/
theorem engineTurn_answers {s : State} (hinv : SystemInv s) : ∃ u, engineTurn s = .next u := by
  cases hp : s.engine.pend with
  | none => exact ⟨s, engineTurn_of_pend_none hp⟩
  | some p =>
    have hok := hinv.pend_ok p hp
    obtain ⟨op, remaining⟩ := p
    cases remaining with
    | nil => exact absurd rfl hok.remaining_ne_nil
    | cons m later =>
      obtain ⟨u, hu⟩ := microStep_answers (m := m) (s := s) (by rintro rfl; exact hok.t_lt_of_round)
      exact ⟨_, engineTurn_of_pend hp hu⟩

/-- R142, R138: so is every agent's step. -/
theorem perform_answers (ev : Event) {s : State} (hinv : SystemInv s) : ∃ u, perform ev s = .next u := by
  cases ev with
  | read | reset => exact ⟨_, rfl⟩
  | write off n v => exact memWrite_answers off n v s
  | engine => exact engineTurn_answers hinv

end Sys2Proof.Safety
end

section
/-! SUPPORT. The statements on the write checks, on ERR and on the machine's never stopping (60_exceptions.md). -/

namespace Sys2Proof.Safety

open Sys2Proof.Machine

/-- Settles O10: a CMD write with BUSY = 0 reaches acceptance, whose outcome is the command's own check. -/
theorem acceptanceConditions : Obligations.AcceptanceConditions := by
  intro s hbusy
  refine ⟨fun v rest => step_write .cmd hbusy, fun v r hv => acceptWord_of_error hv s,
    fun v i hv => acceptWord_of_ok hv s, fun i hi hopen => ?_, fun n hopen => ?_, fun n hopen hrange => ?_,
    fun hphase => ?_, fun i hclosed hround hfinish => ?_⟩
  · exact exec_of_check hbusy ((acceptanceCheck_eq_needsClosed hi _).trans (needsClosed_of_open hopen))
  · exact exec_of_check (i := .round n) hbusy (needsRounds_of_closed n hopen)
  · exact exec_of_check (i := .round n) hbusy (needsRounds_of_range hopen hrange)
  · exact exec_of_check (i := .finish) hbusy (needsComplete_eq_some hphase)
  · exact exec_of_not_busy hbusy (acceptanceCheck_eq_none hclosed hround hfinish)

/-- Settles O9: one lemma for each check, and for those of CMD the conditions of acceptance. -/
theorem writeCheckOrder : Obligations.WriteCheckOrder := by
  intro s off n v rest hagenda
  have hstep : step s = memWrite off n v (s.withAgenda rest) := step_cons hagenda
  refine ⟨fun h => hstep.trans (memWrite_of_not_legalShape v _ h), ?_⟩
  rintro rfl ha
  refine ⟨fun hbusy => hstep.trans (memWrite_of_busy v ha hbusy), fun hbusy => ?_⟩
  obtain ⟨-, hillegal, hlegal, hneedsClosed, hroundClosed, hroundRange, hfinish, -⟩ :=
    acceptanceConditions (s.withAgenda rest) hbusy
  have hcmd (hoff : off.toNat = 0x00C) : step s = acceptWord v (s.withAgenda rest) := by
    obtain rfl : off = offsetOf .cmd := BitVec.eq_of_toNat_eq hoff
    exact step_write .cmd hbusy hagenda
  have hexec (hoff : off.toNat = 0x00C) {i : Instr} (hv : decode v = .ok i) : step s = exec i (s.withAgenda rest) :=
    (hcmd hoff).trans (hlegal v i hv)
  refine ⟨fun h => hstep.trans (memWrite_of_not_writable v ha hbusy h), fun hlo hhi hopen => ?_,
    fun hoff r hv => (hcmd hoff).trans (hillegal v r hv),
    fun hoff k hv => ⟨fun hopen => (hexec hoff hv).trans (hroundClosed k hopen),
      fun hopen hrange => (hexec hoff hv).trans (hroundRange k hopen hrange)⟩,
    fun hoff i hv hi hopen => (hexec hoff hv).trans (hneedsClosed i hi hopen),
    fun hoff hv hphase => (hexec hoff hv).trans (hfinish hphase)⟩
  obtain ⟨i, rfl⟩ := exists_offsetOf_cv ha hlo hhi
  exact (step_write (.cv i) hbusy hagenda).trans (writeReg_cv_of_open (s.withAgenda rest) hopen i v)

/-- Settles O12: a write that no register takes raises one error; of those that a register takes only ERR's own changes
ERR. -/
theorem writeRecordsAtMostOneError : Obligations.WriteRecordsAtMostOneError := by
  intro s u off n v rest hagenda h
  rw [step_cons hagenda] at h
  obtain ⟨c, rfl⟩ | ⟨r, -, rfl, -, he⟩ := memWrite_effect h
  · exact .inl ⟨1#5 <<< errorBit c, by cases c <;> decide, rfl⟩
  · by_cases hr : r = .err
    · subst hr
      generalize u.engine = e at he ⊢
      cases he
      exact .inr (.inr ⟨rfl, rfl⟩)
    · exact .inr (.inl (he.err_eq hr))

/-- Settles O13, by the effects of a step: only a write to ERR and reset clear an ERR bit. -/
theorem errBitsAreSticky : Obligations.ErrBitsAreSticky := by
  intro s u k h hset hclear
  have heff := step_effect h
  have hne : u.engine.err ≠ s.engine.err := fun herr => by simp [herr, hset] at hclear
  generalize u.engine = e at heff hclear hne
  cases heff with
  | unchanged => exact absurd rfl hne
  | rejected c => simp [getLsbD_setError c hset] at hclear
  | @write r v _ hw he =>
    by_cases hr : r = .err
    · subst hr
      cases he
      exact .inr ⟨v, hw, getLsbD_of_clearErrors hset hclear⟩
    · exact absurd (he.err_eq hr) hne
  | turn hs hp he => exact absurd he.err_eq hne
  | reset hr => exact .inl hr

/-- Settles O54: with the agenda empty the engine moves, else the agent at its head. -/
theorem invariantNeverStops : Obligations.InvariantNeverStops := by
  intro s hinv
  cases hagenda : s.agenda with
  | nil => exact step_nil hagenda ▸ engineTurn_answers hinv
  | cons ev rest => exact step_cons hagenda ▸ perform_answers ev (s := s.withAgenda rest) hinv

/-- Settles O6: with BUSY = 0 the CMD write reaches acceptance; with BUSY = 1 the write and the command are rejected
alike. -/
theorem stepRunsDecodedCommand : Obligations.StepRunsDecodedCommand := by
  intro s v rest i hagenda hv
  cases hbusy : s.engine.busy with
  | false => exact (step_write .cmd hbusy hagenda).trans (acceptWord_of_ok hv _)
  | true =>
    calc step s = .next (raise .busy (s.withAgenda rest)) := (step_cons hagenda).trans (memWrite_of_busy v rfl hbusy)
      _ = exec i (s.withAgenda rest) := (exec_of_busy i (s := s.withAgenda rest) hbusy).symm

/-- Settles O7: the interface places a CMD write of the command's word, and that word decodes to the command. -/
theorem placedCommandRunsNext : Obligations.PlacedCommandRunsNext := by
  intro s i hi
  refine stepRunsDecodedCommand (s.withFetchWord 32 (encode i).toNat) _ s.agenda i rfl ?_
  rw [Nat.mod_eq_of_lt (encode i).isLt, BitVec.ofNat_toNat, BitVec.setWidth_eq]
  exact decode_encode hi

end Sys2Proof.Safety
end

section
/-! SUPPORT. How many engine turns a pending command still takes (70_reset_and_hazards.md R160), and that they bring the
engine to idle (R161). -/

namespace Sys2Proof.Safety

open Sys2Proof.Machine

/-- R56, R160: the micro-steps still to perform, one to an engine turn. -/
def turnsLeft (e : Engine) : Nat := e.pend.elim 0 fun p => p.remaining.length

theorem turnsLeft_of_pend_none {e : Engine} (h : e.pend = none) : turnsLeft e = 0 := by
  rw [turnsLeft, h]; rfl

theorem turnsLeft_of_pend {e : Engine} {p : Pending} (h : e.pend = some p) :
    turnsLeft e = p.remaining.length := by
  rw [turnsLeft, h]; rfl

@[simp] theorem turnsLeft_retire (op : Instr) (later : List MicroStep) (s : State) :
    turnsLeft (retire op later s).engine = later.length := by
  cases later <;> rfl

/-- R160: COMPRESS before its first micro-step has the most of them, 66. -/
theorem PendingOk.length_le {e : Engine} {p : Pending} (h : PendingOk e p) : p.remaining.length ≤ 66 := by
  obtain ⟨op, remaining⟩ := p
  cases op with
  | round n =>
    obtain ⟨-, -, -, -, ht⟩ := h
    omega
  | compress =>
    obtain ⟨rfl, -⟩ | ⟨rfl, -⟩ := h
    · simp
    · simp; omega
  | init | begin => obtain ⟨rfl, -⟩ := h; simp
  | finish => obtain ⟨rfl, -, -⟩ := h; simp
  | _ => obtain rfl := h; simp

theorem turnsLeft_le {e : Engine} (hinv : Inv e) : turnsLeft e ≤ 66 := by
  cases hp : e.pend with
  | none => rw [turnsLeft_of_pend_none hp]; exact Nat.zero_le 66
  | some p => rw [turnsLeft_of_pend hp]; exact (hinv.pend_ok p hp).length_le

theorem idle_of_turnsLeft_eq_zero {s : State} (hinv : SystemInv s) (h : turnsLeft s.engine = 0) : Idle s.engine := by
  have hp : s.engine.pend = none := by
    by_contra hne
    obtain ⟨p, hp⟩ := Option.ne_none_iff_exists'.mp hne
    rw [turnsLeft_of_pend hp] at h
    exact (hinv.pend_ok p hp).remaining_ne_nil (List.eq_nil_of_length_eq_zero h)
  exact ⟨by rw [hinv.busy_iff, hp]; rfl, hp⟩

/-- R56: with no host step left a step is an engine turn, which takes one micro-step off and leaves no host step. -/
theorem turnsLeft_of_step {s u : State} (hagenda : s.agenda = []) (h : step s = .next u) :
    u.agenda = [] ∧ turnsLeft u.engine = turnsLeft s.engine - 1 := by
  rw [step_nil hagenda] at h
  obtain ⟨hp, rfl⟩ | ⟨op, m, later, v, hp, hm, rfl⟩ := engineTurn_next h
  · exact ⟨hagenda, by rw [turnsLeft_of_pend_none hp]⟩
  · obtain ⟨hv, -⟩ := microStep_next hm
    refine ⟨(retire_agenda op later v).trans (hv.trans hagenda), ?_⟩
    rw [turnsLeft_retire, turnsLeft_of_pend hp]
    rfl

/-- R161: with no host step left, the turns still to take are answered and end idle. -/
theorem exists_run_idle {s : State} (hinv : SystemInv s) (hagenda : s.agenda = []) :
    ∃ u, core.run (turnsLeft s.engine) s = .next u ∧ Idle u.engine := by
  induction hk : turnsLeft s.engine generalizing s with
  | zero => exact ⟨s, rfl, idle_of_turnsLeft_eq_zero hinv hk⟩
  | succ k ih =>
    obtain ⟨v, hv⟩ := invariantNeverStops s hinv
    obtain ⟨hagenda', hleft⟩ := turnsLeft_of_step hagenda hv
    obtain ⟨u, hrun, hidle⟩ := ih (stepKeepsInvariant s v hinv hv) hagenda' (by rw [hleft, hk]; rfl)
    exact ⟨u, (run_succ_of_step k hv).trans hrun, hidle⟩

/-- Settles O55: the turns still to take are at most 66, and they end idle. -/
theorem acceptedCommandEnds : Obligations.AcceptedCommandEnds := by
  intro s hinv hagenda
  obtain ⟨u, hrun, hidle⟩ := exists_run_idle hinv hagenda
  exact ⟨_, u, turnsLeft_le hinv, hrun, hidle⟩

end Sys2Proof.Safety
end
